-- ==== Sys2Proof/Word.lean ====
section
/-! DEFINITION. The widths of the machine (spec 00_scope.md R9, R13): 64-bit values, 32-bit words, bytes, and
register indices. -/

namespace Sys2Proof

/-- A 64-bit register value, address, pc value or ALU result (R13). -/
abbrev Word := BitVec 64

/-- A 32-bit instruction word, or the 32-bit word a memory port moves (R13, R17). -/
abbrev Word32 := BitVec 32

/-- The smallest addressable unit of memory (R60). -/
abbrev Byte := BitVec 8

/-- A register index, 0 to 31 (R92): decoding a register never fails. -/
abbrev Reg := Fin 32

/-- Index 31, the zero register XZR in every operand position (R30). -/
abbrev xzr : Reg := 31

end Sys2Proof
end

