-- ==== Sys2Proof/Config.lean ====
section
/-! DEFINITION. The named parameters of the spec (00_scope.md R10). `Config` holds the five a step reads; `Boot` the
three that only reset reads. Both are plain data, so that every statement about all states is a statement about
every setting (assumption log 1). -/

namespace Sys2Proof

/-- `ALIGN_POLICY` (R65, R67, D5): a misaligned access faults, or is done byte by byte. -/
inductive AlignPolicy where
  | fault
  | bytewise
deriving DecidableEq, Repr

/-- `SHIFT_READING` (R186, R187, D11): how a word of the shift class gives LSL or LSR and the amount. -/
inductive ShiftReading where
  | a64
  | literal
deriving DecidableEq, Repr

/-- `ADCS_CARRY` (R143, D12): ADCS takes the flag formulas of ADDS literally, or the exact 65-bit sum. -/
inductive AdcsCarry where
  | docFormula
  | exact
deriving DecidableEq, Repr

/-- A range of byte addresses: `size` bytes from `base`. -/
structure Region where
  base : Nat
  size : Nat
deriving DecidableEq, Repr

/-- The parameters of R10 that a step reads. `mapped` gives the predicate `MAPPED` as a list of ranges: every
predicate on the 2^64 byte addresses is such a list. -/
structure Config where
  alignPolicy       : AlignPolicy
  mapped            : List Region
  narrowStoreAddr32 : Bool
  shiftReading      : ShiftReading
  adcsCarry         : AdcsCarry
deriving DecidableEq, Repr

/-- The defaults of R10. `MAPPED` has none there: every address is mapped (DESIGN CHOICE, assumption log 3; unsafe),
which D6 says is the source's "total" memory. -/
def Config.default : Config where
  alignPolicy       := .fault
  mapped            := [⟨0, 2 ^ 64⟩]
  narrowStoreAddr32 := false
  shiftReading      := .a64
  adcsCarry         := .docFormula

/-- The parameters of R10 that only reset reads: `RESET_PC`, `INIT_REGS` (X0 to X30) and `INIT_MEM`, the byte contents
of memory as (address, byte) pairs. -/
structure Boot where
  resetPc  : Word
  initRegs : Vector Word 31
  initMem  : List Host.Cell
deriving DecidableEq, Repr

/-- `INIT_REGS` at its default, all zero (R10, D10). `RESET_PC` and `INIT_MEM` are OPEN in the spec: pc 0 and nothing
loaded (DESIGN CHOICE, assumption log 2 and 5; unsafe). -/
def Boot.default : Boot where
  resetPc  := 0
  initRegs := Vector.replicate 31 0
  initMem  := []

end Sys2Proof
end

