-- ==== Sys2Proof/Syntax.lean ====
section
/-! DEFINITION. The instructions: one constructor per row of spec/opcode_table.json (30_encoding.md R101), with the
fields its rule reads (R91). -/

namespace Sys2Proof

/-- The condition of B.cond (43_branch.md R216). A code outside the six recognised ones is an instruction too
(it emits `UNKNOWN_COND`): it keeps its four bits. -/
inductive Cond where
  | eq
  | ne
  | ge
  | lt
  | gt
  | le
  | unrecognised (code : BitVec 4)
deriving DecidableEq, Repr

/-- The 2-bit immediate shift selector `sh` where it is in the opcode table (R97): 00 or 01. -/
inductive ImmShift where
  | lsl0
  | lsl12
deriving DecidableEq, Repr

/-- One constructor per row of spec/opcode_table.json, in the table's order. Operand names are the field names of
R91; the data register of loads and stores and the tested register of CBZ and CBNZ is the field `Rd` (R19, R273). -/
inductive Instr where
  /-- HLT (40_system.md R130). -/
  | hlt
  /-- ADDS (register) (41_arith.md R146). -/
  | addsReg (rd rn rm : Reg)
  /-- ADDS (immediate) (R147). -/
  | addsImm (rd rn : Reg) (imm12 : BitVec 12) (sh : ImmShift)
  /-- SUBS (register) (R148). -/
  | subsReg (rd rn rm : Reg)
  /-- SUBS (immediate) (R149). -/
  | subsImm (rd rn : Reg) (imm12 : BitVec 12) (sh : ImmShift)
  /-- ADCS (R152). -/
  | adcs (rd rn rm : Reg)
  /-- ADD (register) (R153). -/
  | addReg (rd rn rm : Reg)
  /-- ADD (immediate) (R154). -/
  | addImm (rd rn : Reg) (imm12 : BitVec 12) (sh : ImmShift)
  /-- SUB (register) (R155). -/
  | subReg (rd rn rm : Reg)
  /-- SUB (immediate) (R156). -/
  | subImm (rd rn : Reg) (imm12 : BitVec 12) (sh : ImmShift)
  /-- ANDS (42_logic_mul_shift.md R180). -/
  | ands (rd rn rm : Reg)
  /-- EOR (R181). -/
  | eor (rd rn rm : Reg)
  /-- ORR (R182). -/
  | orr (rd rn rm : Reg)
  /-- MUL (R183). -/
  | mul (rd rn rm : Reg)
  /-- LSL (R188). -/
  | lsl (rd rn : Reg) (immr imms : BitVec 6)
  /-- LSR (R189). -/
  | lsr (rd rn : Reg) (immr imms : BitVec 6)
  /-- B (43_branch.md R210). -/
  | b (imm26 : BitVec 26)
  /-- BR (R213). -/
  | br (rn : Reg)
  /-- B.cond (R215). -/
  | bCond (imm19 : BitVec 19) (cond : Cond)
  /-- CBZ (R218). -/
  | cbz (rd : Reg) (imm19 : BitVec 19)
  /-- CBNZ (R219). -/
  | cbnz (rd : Reg) (imm19 : BitVec 19)
  /-- MOVZ (44_move.md R240). -/
  | movz (rd : Reg) (imm16 : BitVec 16) (hw : BitVec 2)
  /-- STUR (45_loadstore.md R250). -/
  | stur (rd rn : Reg) (imm9 : BitVec 9)
  /-- STURB (R251). -/
  | sturb (rd rn : Reg) (imm9 : BitVec 9)
  /-- STURH (R252). -/
  | sturh (rd rn : Reg) (imm9 : BitVec 9)
  /-- LDUR (R260). -/
  | ldur (rd rn : Reg) (imm9 : BitVec 9)
  /-- LDURB (R261). -/
  | ldurb (rd rn : Reg) (imm9 : BitVec 9)
  /-- LDURH (R262). -/
  | ldurh (rd rn : Reg) (imm9 : BitVec 9)
deriving DecidableEq, Repr

end Sys2Proof
end

