-- ==== Sys2Proof/Machine/State.lean ====
section
/-! DEFINITION. The state of the machine (10_state.md), all plain data, the reasons a step can stop
(60_exceptions.md R303), and reset (70_reset_and_hazards.md R330). -/

namespace Sys2Proof.Machine

/-- The four condition flags, four separate bits (R35, R47). -/
structure Flags where
  z : Bool
  n : Bool
  c : Bool
  v : Bool
deriving DecidableEq, Repr

/-- One copy of the double-buffered state (R37): the 32 stored register entries (R30), the pc (R34), the flags. -/
structure ArchState where
  registers : Vector Word 32
  pc        : Word
  flags     : Flags
deriving DecidableEq, Repr

/-- The kinds of a diagnostic event (R44, R301). -/
inductive Diagnostic where
  /-- `UNKNOWN_OPCODE` (R132). -/
  | unknownOpcode
  /-- `UNKNOWN_COND` (R216). -/
  | unknownCond
  /-- `MOVZ_HW_NONZERO` (R240). -/
  | movzHwNonzero
deriving DecidableEq, Repr

/-- What passes an output port of the block (R41 to R44): a fetch, load or store command with the word moved, or a
diagnostic event. -/
inductive PortEvent where
  | fetch (address : Word) (word : Word32)
  | load (address : Word) (word : Word32)
  | store (address : Word) (word : Word32)
  | diag (kind : Diagnostic)
deriving DecidableEq, Repr

/-- What an unlisted address of memory reads as (DESIGN CHOICE, assumption log 5; unsafe). -/
def unlistedByte : Byte := 0

/-- The byte map `M` (R61) as (address, byte) pairs. -/
structure Memory where
  cells : List Host.Cell
deriving DecidableEq, Repr

/-- The canonical form of memory: addresses strictly rising and inside the 64-bit space, no listed byte equal to what
an unlisted address reads as. Equal memories in this form are equal data. -/
def Memory.wf (m : Memory) : Bool :=
  decide (m.cells.Pairwise fun x y => x.1 < y.1) &&
    m.cells.all fun x => decide (x.1 < 2 ^ 64) && decide (x.2 ≠ unlistedByte)

/-- The whole machine. `config` and `trace` are the model's own fields (assumption log 1 and 6): no instruction writes
`config`, nothing reads `trace`. -/
structure State where
  config  : Config
  current : ArchState
  next    : ArchState
  runBit  : Bool
  mem     : Memory
  trace   : List PortEvent
deriving DecidableEq, Repr

/-- The four model-level faults (60_exceptions.md R303), with the values R303 records. No program can observe one. A
fault ends the run and commits nothing (R304). They stand for accesses the memory collaborator would have to refuse:
safe, the model stops where a memory might go on. -/
inductive Fault where
  /-- Code 1, raised by the fetch of any step when the pc is no multiple of 4 under `ALIGN_POLICY = FAULT` (R67).
  Safe. -/
  | misalignedFetch (pc : Word)
  /-- Code 2, raised by the fetch of any step when a byte of pc to pc + 3 is not `MAPPED` (R66). Safe. -/
  | unmappedFetch (pc : Word)
  /-- Code 3, raised by LDUR and STUR at an address that is no multiple of 4, and by LDURH and STURH at lane 3, under
  `ALIGN_POLICY = FAULT` (R65, R250, R252, R260, R262). Safe. -/
  | misalignedData (pc address : Word)
  /-- Code 4, raised by the six loads and stores when a byte of a word they touch is not `MAPPED` (R66). Safe. -/
  | unmappedData (pc address : Word)
deriving DecidableEq, Repr

/-- Why a step gives no meaning. -/
inductive Refusal where
  /-- Raised by an arm of `exec` for an instruction the model has no meaning for yet; no arm raises it. Safe. -/
  | notModelled (mnemonic : String)
  /-- Raised by `step` when `run_bit` is false: the run has ended and the run loop performs no step (R38, R131).
  Safe. -/
  | runEnded
deriving DecidableEq, Repr

/-- The two copies at the creation of the state: registers from `INIT_REGS`, the pc at `RESET_PC`, flags false (R330).
The stored entry 31 is irrelevant (R32): 0 (DESIGN CHOICE, assumption log 4). -/
def ArchState.ofBoot (b : Boot) : ArchState where
  registers := b.initRegs.push 0
  pc        := b.resetPc
  flags     := ⟨false, false, false, false⟩

/-- Reset with given parameters: everything R330 sets, at once. -/
def State.resetWith (c : Config) (b : Boot) : State where
  config  := c
  current := ArchState.ofBoot b
  next    := ArchState.ofBoot b
  runBit  := true
  mem     := ⟨b.initMem⟩
  trace   := []

/-- The machine right after reset, at the defaults of R10; the values of the OPEN parameters `MAPPED`, `RESET_PC` and
`INIT_MEM` are the model's (assumption log 2, 3, 5). -/
def State.reset : State := State.resetWith Config.default Boot.default

end Sys2Proof.Machine
end

