-- ==== Sys2Proof/Machine/Flags.lean ====
section
/-! DEFINITION. The flag logic (41_arith.md R140 to R143). -/

namespace Sys2Proof.Machine

/-- `set_zn(r)`: Z and N from the result, C and V kept (R140). -/
def setZN (r : Word) (f : Flags) : Flags := { f with z := r == 0, n := r.msb }

/-- The flags of `set_znvc_add(a, b, r)` (R141). -/
def flagsAdd (a b r : Word) : Flags where
  z := r == 0
  n := r.msb
  c := decide (r.toNat < a.toNat)
  v := ((a ^^^ r) &&& (b ^^^ r)).msb

/-- The flags of `set_znvc_sub(a, b, r)` (R142). -/
def flagsSub (a b r : Word) : Flags where
  z := r == 0
  n := r.msb
  c := decide (b.toNat ≤ a.toNat)
  v := ((a ^^^ b) &&& (a ^^^ r)).msb

/-- The carry-in as a 64-bit 0 or 1 (R152). -/
def carryIn (c : Bool) : Word := if c then 1 else 0

/-- The flags of ADCS under `ADCS_CARRY = EXACT`: carry and overflow of the sum over the integers (R143). -/
def flagsAdcsExact (a b : Word) (cin : Bool) (r : Word) : Flags where
  z := r == 0
  n := r.msb
  c := decide (2 ^ 64 ≤ a.toNat + b.toNat + (carryIn cin).toNat)
  v := decide (¬ (-(2 ^ 63) ≤ a.toInt + b.toInt + (carryIn cin).toInt ∧
    a.toInt + b.toInt + (carryIn cin).toInt ≤ 2 ^ 63 - 1))

/-- The flags of ADCS (R143): the formulas of R141 on `r = a + b + cin`, or the exact ones. -/
def flagsAdcs (setting : AdcsCarry) (a b : Word) (cin : Bool) (r : Word) : Flags :=
  match setting with
  | .docFormula => flagsAdd a b r
  | .exact      => flagsAdcsExact a b cin r

end Sys2Proof.Machine
end

