-- ==== Sys2Proof/Decode.lean ====
section
/-! DEFINITION. The field decoder and the decode function (30_encoding.md R91, R100, R101), total on every word and on
any bytes, and the encoder written from the same tables (R93, R101, R106). -/

namespace Sys2Proof

/-! ## Fields (R91) -/

/-- A 5-bit register field (R92). -/
def regField (w : Word32) (lo : Nat) : Reg := (w.extractLsb' lo 5).toFin

def fieldRd (w : Word32) : Reg := regField w 0
def fieldRn (w : Word32) : Reg := regField w 5
def fieldRm (w : Word32) : Reg := regField w 16
def fieldImm9 (w : Word32) : BitVec 9 := w.extractLsb' 12 9
def fieldImm19 (w : Word32) : BitVec 19 := w.extractLsb' 5 19
def fieldOp11 (w : Word32) : BitVec 11 := w.extractLsb' 21 11
def fieldOp8 (w : Word32) : BitVec 8 := w.extractLsb' 24 8
def fieldImm26 (w : Word32) : BitVec 26 := w.extractLsb' 0 26
def fieldImm12 (w : Word32) : BitVec 12 := w.extractLsb' 10 12
def fieldSh (w : Word32) : BitVec 2 := w.extractLsb' 22 2
def fieldImm16 (w : Word32) : BitVec 16 := w.extractLsb' 5 16
def fieldHw (w : Word32) : BitVec 2 := w.extractLsb' 21 2
def fieldImmr (w : Word32) : BitVec 6 := w.extractLsb' 16 6
def fieldImms (w : Word32) : BitVec 6 := w.extractLsb' 10 6
def fieldCond (w : Word32) : BitVec 4 := w.extractLsb' 0 4

/-- The condition a 4-bit code names (R216, D18). -/
def condOfCode (code : BitVec 4) : Cond :=
  if code = 0b0000#4 then .eq
  else if code = 0b0001#4 then .ne
  else if code = 0b1010#4 then .ge
  else if code = 0b1011#4 then .lt
  else if code = 0b1100#4 then .gt
  else if code = 0b1101#4 then .le
  else .unrecognised code

/-- The code of a condition: the table of R216 read the other way. -/
def codeOfCond : Cond → BitVec 4
  | .eq => 0b0000#4
  | .ne => 0b0001#4
  | .ge => 0b1010#4
  | .lt => 0b1011#4
  | .gt => 0b1100#4
  | .le => 0b1101#4
  | .unrecognised code => code

/-- The immediate shift a selector in the table names (R97): 01 is `LSL #12`, 00 none. The opcode table keeps 10 and
11 away from here. -/
def immShiftOf (sh : BitVec 2) : ImmShift := if sh = 0b01#2 then .lsl12 else .lsl0

/-- The selector of an immediate shift (R97). -/
def shOfImmShift : ImmShift → BitVec 2
  | .lsl0  => 0b00#2
  | .lsl12 => 0b01#2

/-- Is a word of the shift class with these fields LSR (else LSL)? Under `A64`, when imms = 63 (R186); under
`LITERAL`, when op11 = 0x69A (R187), whose last bit w[21] is the top bit of immr. -/
def shiftIsLsr (reading : ShiftReading) (immr imms : BitVec 6) : Bool :=
  match reading with
  | .a64     => imms == 63#6
  | .literal => !immr.msb

/-! ## The opcode table (R101) -/

/-- The classes of R101. LSL and LSR share one class, which is split inside its handler (R186, R187). -/
inductive OpClass where
  | hlt | addsReg | addsImm | subsReg | subsImm | adcs | addReg | addImm | subReg | subImm | ands | eor | orr | mul
  | shift | b | br | bCond | cbz | cbnz | movz | stur | sturb | sturh | ldur | ldurb | ldurh
deriving DecidableEq, Repr

/-- A row of R101: a class and its op11 values, from `lo` to `hi`. -/
structure OpRow where
  cls : OpClass
  lo  : BitVec 11
  hi  : BitVec 11
deriving DecidableEq, Repr

/-- The op11 rows of R101, in its order (every row but B.cond, which has an op8 window). -/
def opTable : List OpRow :=
  [⟨.hlt, 0x6A2, 0x6A2⟩, ⟨.addsReg, 0x558, 0x558⟩, ⟨.addsImm, 0x588, 0x58B⟩, ⟨.subsReg, 0x758, 0x758⟩,
   ⟨.subsImm, 0x788, 0x78B⟩, ⟨.adcs, 0x5D0, 0x5D0⟩, ⟨.addReg, 0x458, 0x458⟩, ⟨.addImm, 0x488, 0x48B⟩,
   ⟨.subReg, 0x658, 0x658⟩, ⟨.subImm, 0x688, 0x68B⟩, ⟨.ands, 0x750, 0x750⟩, ⟨.eor, 0x650, 0x650⟩,
   ⟨.orr, 0x550, 0x550⟩, ⟨.mul, 0x4D8, 0x4D8⟩] ++
  [⟨.shift, 0x69A, 0x69B⟩, ⟨.b, 0x0A0, 0x0BF⟩, ⟨.br, 0x6B0, 0x6B0⟩, ⟨.cbz, 0x5A0, 0x5A7⟩, ⟨.cbnz, 0x5A8, 0x5AF⟩,
   ⟨.movz, 0x694, 0x697⟩, ⟨.stur, 0x7C0, 0x7C0⟩, ⟨.sturb, 0x1C0, 0x1C0⟩, ⟨.sturh, 0x3C0, 0x3C0⟩,
   ⟨.ldur, 0x7C2, 0x7C2⟩, ⟨.ldurb, 0x1C2, 0x1C2⟩, ⟨.ldurh, 0x3C2, 0x3C2⟩]

/-- The class of an op11 value: look it up in the table (R100). -/
def lookupOp11 (op : BitVec 11) : Option OpClass :=
  (opTable.find? fun row => decide (row.lo ≤ op) && decide (op ≤ row.hi)).map OpRow.cls

/-- The class of a word: the op8 window of B.cond first, then the opcode table (R100). `none` is the class UNKNOWN. -/
def classify (w : Word32) : Option OpClass :=
  if fieldOp8 w = 0x54#8 then some .bCond else lookupOp11 (fieldOp11 w)

/-! ## Decode (R100) -/

/-- Why the decoder gives no instruction. -/
inductive DecodeReject where
  /-- The word is in no row of the opcode table: the class UNKNOWN of R100, which R132 executes. -/
  | unrecognisedOpcode (w : Word32)
  /-- Fewer bytes were given than the one word of an instruction (R90); a fetch never gives so few. -/
  | truncated (available : Nat)
deriving DecidableEq, Repr

/-- The instruction of a word of a known class, with the fields its rule reads; every other bit is dropped (R105). -/
def instrOfClass (reading : ShiftReading) (w : Word32) : OpClass → Instr
  | .hlt     => .hlt
  | .addsReg => .addsReg (fieldRd w) (fieldRn w) (fieldRm w)
  | .addsImm => .addsImm (fieldRd w) (fieldRn w) (fieldImm12 w) (immShiftOf (fieldSh w))
  | .subsReg => .subsReg (fieldRd w) (fieldRn w) (fieldRm w)
  | .subsImm => .subsImm (fieldRd w) (fieldRn w) (fieldImm12 w) (immShiftOf (fieldSh w))
  | .adcs    => .adcs (fieldRd w) (fieldRn w) (fieldRm w)
  | .addReg  => .addReg (fieldRd w) (fieldRn w) (fieldRm w)
  | .addImm  => .addImm (fieldRd w) (fieldRn w) (fieldImm12 w) (immShiftOf (fieldSh w))
  | .subReg  => .subReg (fieldRd w) (fieldRn w) (fieldRm w)
  | .subImm  => .subImm (fieldRd w) (fieldRn w) (fieldImm12 w) (immShiftOf (fieldSh w))
  | .ands    => .ands (fieldRd w) (fieldRn w) (fieldRm w)
  | .eor     => .eor (fieldRd w) (fieldRn w) (fieldRm w)
  | .orr     => .orr (fieldRd w) (fieldRn w) (fieldRm w)
  | .mul     => .mul (fieldRd w) (fieldRn w) (fieldRm w)
  | .shift   => if shiftIsLsr reading (fieldImmr w) (fieldImms w)
      then .lsr (fieldRd w) (fieldRn w) (fieldImmr w) (fieldImms w)
      else .lsl (fieldRd w) (fieldRn w) (fieldImmr w) (fieldImms w)
  | .b       => .b (fieldImm26 w)
  | .br      => .br (fieldRn w)
  | .bCond   => .bCond (fieldImm19 w) (condOfCode (fieldCond w))
  | .cbz     => .cbz (fieldRd w) (fieldImm19 w)
  | .cbnz    => .cbnz (fieldRd w) (fieldImm19 w)
  | .movz    => .movz (fieldRd w) (fieldImm16 w) (fieldHw w)
  | .stur    => .stur (fieldRd w) (fieldRn w) (fieldImm9 w)
  | .sturb   => .sturb (fieldRd w) (fieldRn w) (fieldImm9 w)
  | .sturh   => .sturh (fieldRd w) (fieldRn w) (fieldImm9 w)
  | .ldur    => .ldur (fieldRd w) (fieldRn w) (fieldImm9 w)
  | .ldurb   => .ldurb (fieldRd w) (fieldRn w) (fieldImm9 w)
  | .ldurh   => .ldurh (fieldRd w) (fieldRn w) (fieldImm9 w)

/-- The instruction a word stands for. The reading of the shift class is a parameter of the machine (R186, R187). -/
def decode (reading : ShiftReading) (w : Word32) : Except DecodeReject Instr :=
  match classify w with
  | some cls => .ok (instrOfClass reading w cls)
  | none     => .error (.unrecognisedOpcode w)

/-- The word whose bytes in memory are `b0` (lowest address) to `b3`: little-endian (R62, R69). -/
def wordOfBytes (b0 b1 b2 b3 : Byte) : Word32 := b3 ++ b2 ++ b1 ++ b0

/-- Byte `k` of a word, byte 0 at the lowest address (R64, R69). -/
def byteOfWord (w : Word32) (k : Nat) : Byte := w.extractLsb' (8 * k) 8

/-- Decode from a list of bytes, lowest address first: the instruction and the bytes after it (R90). -/
def decodeBytes (reading : ShiftReading) : List Byte → Except DecodeReject (Instr × List Byte)
  | b0 :: b1 :: b2 :: b3 :: rest =>
    match decode reading (wordOfBytes b0 b1 b2 b3) with
    | .ok i    => .ok (i, rest)
    | .error e => .error e
  | short => .error (.truncated short.length)

/-- The four bytes of an instruction word as they lie in memory, from the `nbits` low bits of `w`. -/
def tableWordBytes (nbits w : Nat) : List Byte :=
  let word : Word32 := BitVec.ofNat 32 (w % 2 ^ nbits)
  [byteOfWord word 0, byteOfWord word 1, byteOfWord word 2, byteOfWord word 3]

/-- The instruction the decoder reads from the bits of an opcode-table row, under the default reading of the shift
class (R10, R186). -/
def decodeTableWord (nbits w : Nat) : Option Instr :=
  match decodeBytes Config.default.shiftReading (tableWordBytes nbits w) with
  | .ok (i, _) => some i
  | .error _   => none

/-! ## Encode (R93, R101, R106) -/

/-- The 5 bits of a register index. -/
def regBits (r : Reg) : BitVec 5 := BitVec.ofFin r

/-- Format R: op11 Rm x6 Rn Rd. -/
def encodeR (op11 : BitVec 11) (rm : Reg) (x6 : BitVec 6) (rn rd : Reg) : Word32 :=
  op11 ++ regBits rm ++ x6 ++ regBits rn ++ regBits rd

/-- Format I: op8 sh imm12 Rn Rd. -/
def encodeI (op8 : BitVec 8) (sh : ImmShift) (imm12 : BitVec 12) (rn rd : Reg) : Word32 :=
  op8 ++ shOfImmShift sh ++ imm12 ++ regBits rn ++ regBits rd

/-- Format BF: op10 immr imms Rn Rd. -/
def encodeBF (op10 : BitVec 10) (immr imms : BitVec 6) (rn rd : Reg) : Word32 :=
  op10 ++ immr ++ imms ++ regBits rn ++ regBits rd

/-- Format D: op11 imm9 x2 Rn Rd. -/
def encodeD (op11 : BitVec 11) (imm9 : BitVec 9) (rn rd : Reg) : Word32 :=
  op11 ++ imm9 ++ 0#2 ++ regBits rn ++ regBits rd

/-- Format B: op6 imm26. -/
def encodeB (op6 : BitVec 6) (imm26 : BitVec 26) : Word32 := op6 ++ imm26

/-- Format CB: op8 imm19 Rd. -/
def encodeCB (op8 : BitVec 8) (imm19 : BitVec 19) (rd : Reg) : Word32 := op8 ++ imm19 ++ regBits rd

/-- Format CBc: op8 imm19 x1 cond. -/
def encodeCBc (op8 : BitVec 8) (imm19 : BitVec 19) (cond : Cond) : Word32 := op8 ++ imm19 ++ 0#1 ++ codeOfCond cond

/-- Format IW: op9 hw imm16 Rd. -/
def encodeIW (op9 : BitVec 9) (hw : BitVec 2) (imm16 : BitVec 16) (rd : Reg) : Word32 :=
  op9 ++ hw ++ imm16 ++ regBits rd

/-- Format S: op11 x16 x5. -/
def encodeS (op11 : BitVec 11) : Word32 := op11 ++ 0#16 ++ 0#5

/-- The word an assembler writes for an instruction. Bits the core does not read are those of R106: 0 but for
w[15:10] = 0b011111 of MUL and w[20:10] = 0b11111000000 of BR. -/
def encode : Instr → Word32
  | .hlt                    => encodeS 0x6A2#11
  | .addsReg rd rn rm       => encodeR 0x558#11 rm 0#6 rn rd
  | .addsImm rd rn imm12 sh => encodeI 0xB1#8 sh imm12 rn rd
  | .subsReg rd rn rm       => encodeR 0x758#11 rm 0#6 rn rd
  | .subsImm rd rn imm12 sh => encodeI 0xF1#8 sh imm12 rn rd
  | .adcs rd rn rm          => encodeR 0x5D0#11 rm 0#6 rn rd
  | .addReg rd rn rm        => encodeR 0x458#11 rm 0#6 rn rd
  | .addImm rd rn imm12 sh  => encodeI 0x91#8 sh imm12 rn rd
  | .subReg rd rn rm        => encodeR 0x658#11 rm 0#6 rn rd
  | .subImm rd rn imm12 sh  => encodeI 0xD1#8 sh imm12 rn rd
  | .ands rd rn rm          => encodeR 0x750#11 rm 0#6 rn rd
  | .eor rd rn rm           => encodeR 0x650#11 rm 0#6 rn rd
  | .orr rd rn rm           => encodeR 0x550#11 rm 0#6 rn rd
  | .mul rd rn rm           => encodeR 0x4D8#11 rm 0b011111#6 rn rd
  | .lsl rd rn immr imms    => encodeBF 0x34D#10 immr imms rn rd
  | .lsr rd rn immr imms    => encodeBF 0x34D#10 immr imms rn rd
  | .b imm26                => encodeB 0b000101#6 imm26
  | .br rn                  => encodeR 0x6B0#11 31 0#6 rn 0
  | .bCond imm19 cond       => encodeCBc 0x54#8 imm19 cond
  | .cbz rd imm19           => encodeCB 0xB4#8 imm19 rd
  | .cbnz rd imm19          => encodeCB 0xB5#8 imm19 rd
  | .movz rd imm16 hw       => encodeIW 0b110100101#9 hw imm16 rd
  | .stur rd rn imm9        => encodeD 0x7C0#11 imm9 rn rd
  | .sturb rd rn imm9       => encodeD 0x1C0#11 imm9 rn rd
  | .sturh rd rn imm9       => encodeD 0x3C0#11 imm9 rn rd
  | .ldur rd rn imm9        => encodeD 0x7C2#11 imm9 rn rd
  | .ldurb rd rn imm9       => encodeD 0x1C2#11 imm9 rn rd
  | .ldurh rd rn imm9       => encodeD 0x3C2#11 imm9 rn rd

/-- The bytes of a word as they lie in memory, lowest address first (R64, R69). -/
def encodeBytes (i : Instr) : List Byte :=
  [byteOfWord (encode i) 0, byteOfWord (encode i) 1, byteOfWord (encode i) 2, byteOfWord (encode i) 3]

end Sys2Proof
end

