-- ==== Sys2Proof/Machine/Ops.lean ====
section
/-! DEFINITION. The named operations over registers, memory and ports: register read and write (10_state.md R31, R32),
the word primitives and their checks (20_memory.md R62 to R71), staging and commit (10_state.md R37 to R39).

The core has no exceptions: no trap entry and no return from one (60_exceptions.md R300, R307, R308). What stands in
their place is `fetchFault` and `dataFault`, the one place where each kind of model-level fault is raised (R303). -/

namespace Sys2Proof.Machine

/-! ## Registers, pc and flags: read *current*, write *next* (R37) -/

/-- The stored entry `i` of one copy of the register file (R30). -/
def ArchState.entry (a : ArchState) (i : Reg) : Word := a.registers[i]

/-- `x[i]`, the source's `read_register`: 0 for index 31, else the *current* entry (R31). -/
def readReg (s : State) (i : Reg) : Word := if i = xzr then 0 else s.current.entry i

/-- `x[i] <- v`, the source's `write_register`: nothing for index 31, else the *next* entry (R32). -/
def writeReg (i : Reg) (v : Word) (s : State) : State :=
  if i = xzr then s else { s with next := { s.next with registers := s.next.registers.set i v } }

/-- `pc <- t`: sets `next.pc` (R16). -/
def writePc (t : Word) (s : State) : State := { s with next := { s.next with pc := t } }

/-- Sets the four flags of *next* (R16). -/
def writeFlags (f : Flags) (s : State) : State := { s with next := { s.next with flags := f } }

/-- The default pc policy of a non-branching handler: `next.pc = current.pc + 4`, modulo 2^64 (R34, R39). -/
def advancePc (s : State) : State := writePc (s.current.pc + 4) s

/-- A word passes an output port of the block, or a diagnostic is emitted (R41 to R44). -/
def emit (e : PortEvent) (s : State) : State := { s with trace := s.trace ++ [e] }

/-- `diag(k)`: emits a diagnostic and changes no state of the machine (R18, R44). -/
def emitDiag (k : Diagnostic) (s : State) : State := emit (.diag k) s

/-- `run_bit <- false` (R16, R36). -/
def clearRunBit (s : State) : State := { s with runBit := false }

/-! ## Bytes of memory -/

/-- Insert a pair into a list of rising addresses that does not hold its address. -/
def insertCell (cell : Host.Cell) : List Host.Cell → List Host.Cell
  | [] => [cell]
  | head :: rest => if cell.1 < head.1 then cell :: head :: rest else head :: insertCell cell rest

/-- The byte a list of pairs gives at an address. -/
def readCells (a : Nat) : List Host.Cell → Byte
  | [] => unlistedByte
  | head :: rest => if head.1 = a then head.2 else readCells a rest

/-- Write one byte, keeping the canonical form: a byte equal to what an unlisted address reads as is not listed. -/
def writeCells (a : Nat) (b : Byte) (cells : List Host.Cell) : List Host.Cell :=
  let others := cells.filter fun cell => cell.1 != a
  if b = unlistedByte then others else insertCell (a, b) others

/-- `M[a]` (R61). -/
def Memory.readByte (m : Memory) (a : Word) : Byte := readCells a.toNat m.cells

/-- `M[a] <- b` (R61). -/
def Memory.writeByte (m : Memory) (a : Word) (b : Byte) : Memory := ⟨writeCells a.toNat b m.cells⟩

/-- The 32-bit word at `a`, little-endian, address sums modulo 2^64 (R62, R63, R69). -/
def Memory.readWord (m : Memory) (a : Word) : Word32 :=
  wordOfBytes (m.readByte a) (m.readByte (a + 1)) (m.readByte (a + 2)) (m.readByte (a + 3))

/-- Store a 32-bit word at `a`, little-endian; no other byte changes (R64). -/
def Memory.writeWord (m : Memory) (a : Word) (w : Word32) : Memory :=
  (((m.writeByte a (byteOfWord w 0)).writeByte (a + 1) (byteOfWord w 1)).writeByte (a + 2) (byteOfWord w 2)).writeByte
    (a + 3) (byteOfWord w 3)

/-! ## Sub-word access (R70, R71) -/

/-- `wa(a)`: the aligned word that holds the byte at `a` (R70). -/
def wordAddress (a : Word) : Word := a &&& ~~~3#64

/-- `lane(a)`: the byte's place in that word, 0 to 3 (R70). -/
def lane (a : Word) : Nat := (a.extractLsb' 0 2).toNat

/-- `insert(word, l, n, v)`: `word` with bits 8*l+n-1 to 8*l replaced by `v` (R71). -/
def insertLane {n : Nat} (word : Word32) (l : Nat) (v : BitVec n) : Word32 :=
  (word &&& ~~~((BitVec.allOnes n).setWidth 32 <<< (8 * l))) ||| (v.setWidth 32 <<< (8 * l))

/-- Bits 8*l+n-1 to 8*l of a word (R70). -/
def extractLane (n : Nat) (word : Word32) (l : Nat) : BitVec n := word.extractLsb' (8 * l) n

/-! ## Checks (R65 to R68, R74) -/

/-- Is the byte address in the range? -/
def Region.holds (r : Region) (a : Word) : Bool := decide (r.base ≤ a.toNat) && decide (a.toNat < r.base + r.size)

/-- `MAPPED(a)` (R61). -/
def isMapped (c : Config) (a : Word) : Bool := c.mapped.any fun r => Region.holds r a

/-- Are all four bytes of the word at `a` mapped (R66)? -/
def wordMapped (c : Config) (a : Word) : Bool :=
  isMapped c a && isMapped c (a + 1) && isMapped c (a + 2) && isMapped c (a + 3)

/-- Is `a` a multiple of 4? -/
def isAligned (a : Word) : Bool := lane a == 0

/-- The checks of a fetch at the current pc: alignment, then mapping (R66, R67, R68). -/
def fetchFault (s : State) : Option Fault :=
  if s.config.alignPolicy = .fault ∧ isAligned s.current.pc = false then some (.misalignedFetch s.current.pc)
  else if wordMapped s.config s.current.pc then none
  else some (.unmappedFetch s.current.pc)

/-- The checks of every data access of an instruction, made before its first store (R74): alignment, then mapping of
every word it touches (R65, R66, R68, R305). `misaligned` says whether its address is one that `ALIGN_POLICY`
governs; a fault records the pc and the effective address (R303). -/
def dataFault (s : State) (ea : Word) (misaligned : Bool) (words : List Word) : Option Fault :=
  if s.config.alignPolicy = .fault ∧ misaligned = true then some (.misalignedData s.current.pc ea)
  else if words.all fun a => wordMapped s.config a then none
  else some (.unmappedData s.current.pc ea)

/-- The numeric code of a fault (R303). -/
def Fault.code : Fault → Nat
  | .misalignedFetch _ => 1
  | .unmappedFetch _   => 2
  | .misalignedData .. => 3
  | .unmappedData ..   => 4

/-- The pc a fault records: the address of the instruction that faulted (R303, R304). -/
def Fault.recordedPc : Fault → Word
  | .misalignedFetch pc  => pc
  | .unmappedFetch pc    => pc
  | .misalignedData pc _ => pc
  | .unmappedData pc _   => pc

/-- The effective address a data fault records (R303). -/
def Fault.recordedAddress : Fault → Option Word
  | .misalignedFetch _  => none
  | .unmappedFetch _    => none
  | .misalignedData _ a => some a
  | .unmappedData _ a   => some a

/-! ## The ports (R41 to R43): a checked access, recorded -/

/-- `load_word(a)`, with the word it returns (R42, R63). The checks were made (R74). -/
def loadWord (a : Word) (s : State) : Word32 × State :=
  (s.mem.readWord a, emit (.load a (s.mem.readWord a)) s)

/-- `store_word(a, w)` (R43, R64). The checks were made (R74). Memory changes at once: it is not double-buffered. -/
def storeWord (a : Word) (w : Word32) (s : State) : State :=
  emit (.store a w) { s with mem := s.mem.writeWord a w }

/-! ## The parts of a dispatch step (R38, R39) -/

/-- `fetch_word` at the current pc (R41, R62). -/
def fetchWord (s : State) : Except Fault Word32 :=
  match fetchFault s with
  | some f => .error f
  | none   => .ok (s.mem.readWord s.current.pc)

/-- `next <- current`, at the start of a step (R39, R45). -/
def stage (s : State) : State := { s with next := s.current }

/-- A step after its fetch returned `w`: *next* staged, the fetch recorded; what a handler starts from (R39). -/
def afterFetch (w : Word32) (s : State) : State := emit (.fetch s.current.pc w) (stage s)

/-- `current <- next`, the run loop's commit (R38). -/
def commit (s : State) : State := { s with current := s.next }

/-- A handler's outcome as the run loop sees it: a next state is committed, a fault commits nothing (R38, R304). -/
def commitOutcome : Host.Outcome State Fault Refusal → Host.Outcome State Fault Refusal
  | .next s    => .next (commit s)
  | .fault f   => .fault f
  | .refused r => .refused r

/-- A handler of a non-branching instruction without memory access ends: pc + 4, and the step goes on (R39). -/
def retire (s : State) : Host.Outcome State Fault Refusal := .next (advancePc s)

/-- A branching handler ends: `next.pc` is the given target (R39). -/
def jump (target : Word) (s : State) : Host.Outcome State Fault Refusal := .next (writePc target s)

end Sys2Proof.Machine
end

