-- ==== Sys2Proof/Machine/Operands.lean ====
section
/-! DEFINITION. Immediate and operand assembly (30_encoding.md R94 to R99), shift amounts (42_logic_mul_shift.md R186,
R187), condition tests (43_branch.md R216) and effective addresses (45_loadstore.md R270, R271). -/

namespace Sys2Proof.Machine

/-- `off9 = sext_9(imm9)`: a signed byte offset (R94). -/
def off9 (imm9 : BitVec 9) : Word := imm9.signExtend 64

/-- `off19 = sext_19(imm19) << 2`: a signed byte offset, a multiple of 4 (R95). -/
def off19 (imm19 : BitVec 19) : Word := imm19.signExtend 64 <<< 2

/-- `off26 = sext_26(imm26) << 2`: a signed byte offset, a multiple of 4 (R96). -/
def off26 (imm26 : BitVec 26) : Word := imm26.signExtend 64 <<< 2

/-- `immv`: the zero-extended arithmetic immediate, shifted left by 12 when sh = 01 (R97). -/
def arithImm (imm12 : BitVec 12) : ImmShift → Word
  | .lsl0  => imm12.setWidth 64
  | .lsl12 => imm12.setWidth 64 <<< 12

/-- The MOVZ immediate, zero-extended; `hw` is not part of it (R98). -/
def movzImm (imm16 : BitVec 16) : Word := imm16.setWidth 64

/-- The amount of an LSL: 63 - imms under `A64` (R186), 63 - immr under `LITERAL` (R187). -/
def lslAmount (reading : ShiftReading) (immr imms : BitVec 6) : Nat :=
  match reading with
  | .a64     => 63 - imms.toNat
  | .literal => 63 - immr.toNat

/-- The amount of an LSR: immr under `A64` (R186), imms under `LITERAL` (R187). -/
def lsrAmount (reading : ShiftReading) (immr imms : BitVec 6) : Nat :=
  match reading with
  | .a64     => immr.toNat
  | .literal => imms.toNat

/-- The test of a condition on the flags: Z and N only; `none` for an unrecognised code (R216). -/
def condHolds (f : Flags) : Cond → Option Bool
  | .eq => some f.z
  | .ne => some (!f.z)
  | .ge => some (!f.n)
  | .lt => some f.n
  | .gt => some (!f.z && !f.n)
  | .le => some (f.z || f.n)
  | .unrecognised _ => none

/-- The pc of a conditional branch: the target when taken, else the next instruction (R211, R215, R217). -/
def branchTarget (s : State) (taken : Bool) (offset : Word) : Word :=
  if taken then s.current.pc + offset else s.current.pc + 4

/-- `EA = x[Rn] + sext_9(imm9)`, modulo 2^64 (R270). -/
def effectiveAddress (s : State) (rn : Reg) (imm9 : BitVec 9) : Word := readReg s rn + off9 imm9

/-- `EA_narrow_store`: EA, or its low 32 bits zero-extended under `NARROW_STORE_ADDR32` (R271). -/
def narrowStoreAddress (s : State) (rn : Reg) (imm9 : BitVec 9) : Word :=
  if s.config.narrowStoreAddr32 then ((effectiveAddress s rn imm9).setWidth 32).setWidth 64
  else effectiveAddress s rn imm9

/-- The words a 64-bit access at `a` moves: the low word's address and the high word's (R250, R260). -/
def doublewordWords (a : Word) : List Word := [a, a + 4]

/-- The words that hold the halfword at `a`: one, or two where it crosses at lane 3 (R252, R262). -/
def halfwordWords (a : Word) : List Word :=
  if lane a ≤ 2 then [wordAddress a] else [wordAddress a, wordAddress a + 4]

/-- Does the halfword at `a` cross a word boundary (R65)? -/
def halfwordCrosses (a : Word) : Bool := decide (2 < lane a)

end Sys2Proof.Machine
end

