-- ==== Sys2Proof/Machine/Arith.lean ====
section
/-! DEFINITION. The arithmetic instructions (41_arith.md): operands are read from *current*, the result goes to Rd, the
pc advances by 4. None faults (no data memory). CMP and CMN are SUBS and ADDS with Rd = 31 (R107, R150, R151). -/

namespace Sys2Proof.Machine

/-- Add `a` and `b` into Rd and set the flags (R146, R147). -/
def addSettingFlags (rd : Reg) (a b : Word) (s : State) : Host.Outcome State Fault Refusal :=
  retire (writeFlags (flagsAdd a b (a + b)) (writeReg rd (a + b) s))

/-- Subtract `b` from `a` into Rd and set the flags (R148, R149). -/
def subSettingFlags (rd : Reg) (a b : Word) (s : State) : Host.Outcome State Fault Refusal :=
  retire (writeFlags (flagsSub a b (a - b)) (writeReg rd (a - b) s))

/-- ADDS (register) (R146). -/
def execAddsReg (rd rn rm : Reg) (s : State) : Host.Outcome State Fault Refusal :=
  addSettingFlags rd (readReg s rn) (readReg s rm) s

/-- ADDS (immediate) (R147). -/
def execAddsImm (rd rn : Reg) (imm12 : BitVec 12) (sh : ImmShift) (s : State) : Host.Outcome State Fault Refusal :=
  addSettingFlags rd (readReg s rn) (arithImm imm12 sh) s

/-- SUBS (register) (R148). -/
def execSubsReg (rd rn rm : Reg) (s : State) : Host.Outcome State Fault Refusal :=
  subSettingFlags rd (readReg s rn) (readReg s rm) s

/-- SUBS (immediate) (R149). -/
def execSubsImm (rd rn : Reg) (imm12 : BitVec 12) (sh : ImmShift) (s : State) : Host.Outcome State Fault Refusal :=
  subSettingFlags rd (readReg s rn) (arithImm imm12 sh) s

/-- ADCS (R152): the carry-in is the C of *current*; the flags are those of R143. -/
def execAdcs (rd rn rm : Reg) (s : State) : Host.Outcome State Fault Refusal :=
  let a := readReg s rn
  let b := readReg s rm
  let r := a + b + carryIn s.current.flags.c
  retire (writeFlags (flagsAdcs s.config.adcsCarry a b s.current.flags.c r) (writeReg rd r s))

/-- ADD (register), no flags (R153). -/
def execAddReg (rd rn rm : Reg) (s : State) : Host.Outcome State Fault Refusal :=
  retire (writeReg rd (readReg s rn + readReg s rm) s)

/-- ADD (immediate), no flags (R154). -/
def execAddImm (rd rn : Reg) (imm12 : BitVec 12) (sh : ImmShift) (s : State) : Host.Outcome State Fault Refusal :=
  retire (writeReg rd (readReg s rn + arithImm imm12 sh) s)

/-- SUB (register), no flags (R155). -/
def execSubReg (rd rn rm : Reg) (s : State) : Host.Outcome State Fault Refusal :=
  retire (writeReg rd (readReg s rn - readReg s rm) s)

/-- SUB (immediate), no flags (R156). -/
def execSubImm (rd rn : Reg) (imm12 : BitVec 12) (sh : ImmShift) (s : State) : Host.Outcome State Fault Refusal :=
  retire (writeReg rd (readReg s rn - arithImm imm12 sh) s)

end Sys2Proof.Machine
end

