-- ==== Sys2Proof/Machine/Branch.lean ====
section
/-! DEFINITION. Control transfer (43_branch.md): each writes only `next.pc`. A bad target faults at the next fetch. No
delay slot and no link (R212). -/

namespace Sys2Proof.Machine

/-- B: `pc <- pc + off26` (R210). -/
def execB (imm26 : BitVec 26) (s : State) : Host.Outcome State Fault Refusal := jump (s.current.pc + off26 imm26) s

/-- BR: `pc <- x[Rn]`, unchanged and unchecked (R213, R214). -/
def execBr (rn : Reg) (s : State) : Host.Outcome State Fault Refusal := jump (readReg s rn) s

/-- B.cond: the test is on the *current* Z and N; an unrecognised code emits `UNKNOWN_COND` and does not branch
(R215, R216, R217). -/
def execBCond (imm19 : BitVec 19) (cond : Cond) (s : State) : Host.Outcome State Fault Refusal :=
  match condHolds s.current.flags cond with
  | some taken => jump (branchTarget s taken (off19 imm19)) s
  | none       => retire (emitDiag .unknownCond s)

/-- CBZ: all 64 bits of `x[Rd]` are tested (R218). -/
def execCbz (rd : Reg) (imm19 : BitVec 19) (s : State) : Host.Outcome State Fault Refusal :=
  jump (branchTarget s (readReg s rd == 0) (off19 imm19)) s

/-- CBNZ (R219). -/
def execCbnz (rd : Reg) (imm19 : BitVec 19) (s : State) : Host.Outcome State Fault Refusal :=
  jump (branchTarget s (readReg s rd != 0) (off19 imm19)) s

end Sys2Proof.Machine
end

