-- ==== Sys2Proof/Machine/LoadStore.lean ====
section
/-! DEFINITION. Loads and stores (45_loadstore.md). Every check of a step is made before its first store (20_memory.md
R74); the base register is never written (R272); the data register is the field Rd (R273). -/

namespace Sys2Proof.Machine

/-- Make an instruction's data checks, then go on where they pass (R74, R304). -/
def guarded (fault : Option Fault) (result : State) : Host.Outcome State Fault Refusal :=
  match fault with
  | some f => .fault f
  | none   => .next result

/-- The two words of a 64-bit store at `a`, the low word at the lower address (R250, D23). -/
def storeDoubleword (a v : Word) (s : State) : State :=
  storeWord (a + 4) (v.extractLsb' 32 32) (storeWord a (v.extractLsb' 0 32) s)

/-- The read-modify-write of a byte in its containing word (R251). -/
def storeByte (a : Word) (b : Byte) (s : State) : State :=
  let w0 := loadWord (wordAddress a) s
  storeWord (wordAddress a) (insertLane w0.1 (lane a) b) w0.2

/-- The read-modify-write of a halfword: in one word, or at lane 3 in the two words that hold it (R252). -/
def storeHalfword (a : Word) (h : BitVec 16) (s : State) : State :=
  if lane a ≤ 2 then
    let w0 := loadWord (wordAddress a) s
    storeWord (wordAddress a) (insertLane w0.1 (lane a) h) w0.2
  else
    let w0 := loadWord (wordAddress a) s
    let w1 := loadWord (wordAddress a + 4) w0.2
    storeWord (wordAddress a + 4) (insertLane w1.1 0 (h.extractLsb' 8 8))
      (storeWord (wordAddress a) (insertLane w0.1 3 (h.extractLsb' 0 8)) w1.2)

/-- A 64-bit load: two words, the low one at the lower address (R260). -/
def loadDoubleword (a : Word) (s : State) : Word × State :=
  let lo := loadWord a s
  let hi := loadWord (a + 4) lo.2
  (hi.1 ++ lo.1, hi.2)

/-- A byte load: its lane of the containing word (R261, D24). -/
def loadByte (a : Word) (s : State) : Byte × State :=
  let w0 := loadWord (wordAddress a) s
  (extractLane 8 w0.1 (lane a), w0.2)

/-- A halfword load: its lanes of one word, or at lane 3 of the two words that hold it (R262, D24). -/
def loadHalfword (a : Word) (s : State) : BitVec 16 × State :=
  if lane a ≤ 2 then
    let w0 := loadWord (wordAddress a) s
    (extractLane 16 w0.1 (lane a), w0.2)
  else
    let w0 := loadWord (wordAddress a) s
    let w1 := loadWord (wordAddress a + 4) w0.2
    (extractLane 8 w1.1 0 ++ extractLane 8 w0.1 3, w1.2)

/-- STUR (R250). -/
def execStur (rd rn : Reg) (imm9 : BitVec 9) (s : State) : Host.Outcome State Fault Refusal :=
  let a := effectiveAddress s rn imm9
  guarded (dataFault s a (!isAligned a) (doublewordWords a)) (advancePc (storeDoubleword a (readReg s rd) s))

/-- STURB (R251); the address is narrowed as R271 says. -/
def execSturb (rd rn : Reg) (imm9 : BitVec 9) (s : State) : Host.Outcome State Fault Refusal :=
  let a := narrowStoreAddress s rn imm9
  guarded (dataFault s a false [wordAddress a]) (advancePc (storeByte a ((readReg s rd).setWidth 8) s))

/-- STURH (R252); the address is narrowed as R271 says. -/
def execSturh (rd rn : Reg) (imm9 : BitVec 9) (s : State) : Host.Outcome State Fault Refusal :=
  let a := narrowStoreAddress s rn imm9
  guarded (dataFault s a (halfwordCrosses a) (halfwordWords a))
    (advancePc (storeHalfword a ((readReg s rd).setWidth 16) s))

/-- LDUR (R260). -/
def execLdur (rd rn : Reg) (imm9 : BitVec 9) (s : State) : Host.Outcome State Fault Refusal :=
  let a := effectiveAddress s rn imm9
  let loaded := loadDoubleword a s
  guarded (dataFault s a (!isAligned a) (doublewordWords a)) (advancePc (writeReg rd loaded.1 loaded.2))

/-- LDURB, zero-extended (R261). -/
def execLdurb (rd rn : Reg) (imm9 : BitVec 9) (s : State) : Host.Outcome State Fault Refusal :=
  let a := effectiveAddress s rn imm9
  let loaded := loadByte a s
  guarded (dataFault s a false [wordAddress a]) (advancePc (writeReg rd (loaded.1.setWidth 64) loaded.2))

/-- LDURH, zero-extended (R262). -/
def execLdurh (rd rn : Reg) (imm9 : BitVec 9) (s : State) : Host.Outcome State Fault Refusal :=
  let a := effectiveAddress s rn imm9
  let loaded := loadHalfword a s
  guarded (dataFault s a (halfwordCrosses a) (halfwordWords a)) (advancePc (writeReg rd (loaded.1.setWidth 64) loaded.2))

end Sys2Proof.Machine
end

