-- ==== Sys2Proof/Machine/Logic.lean ====
section
/-! DEFINITION. The logical, multiply and shift instructions (42_logic_mul_shift.md). None faults. -/

namespace Sys2Proof.Machine

/-- Write `r` to Rd and set Z and N from it; C and V of *next* are left alone (R180, R188, R189). -/
def writeSettingZN (rd : Reg) (r : Word) (s : State) : Host.Outcome State Fault Refusal :=
  retire (writeFlags (setZN r s.next.flags) (writeReg rd r s))

/-- ANDS (R180). -/
def execAnds (rd rn rm : Reg) (s : State) : Host.Outcome State Fault Refusal :=
  writeSettingZN rd (readReg s rn &&& readReg s rm) s

/-- EOR, no flags (R181). -/
def execEor (rd rn rm : Reg) (s : State) : Host.Outcome State Fault Refusal :=
  retire (writeReg rd (readReg s rn ^^^ readReg s rm) s)

/-- ORR, no flags (R182). -/
def execOrr (rd rn rm : Reg) (s : State) : Host.Outcome State Fault Refusal :=
  retire (writeReg rd (readReg s rn ||| readReg s rm) s)

/-- MUL: the low 64 bits of the product, no flags (R183). -/
def execMul (rd rn rm : Reg) (s : State) : Host.Outcome State Fault Refusal :=
  retire (writeReg rd (readReg s rn * readReg s rm) s)

/-- LSL by the amount of R186 or R187 (R188). -/
def execLsl (rd rn : Reg) (immr imms : BitVec 6) (s : State) : Host.Outcome State Fault Refusal :=
  writeSettingZN rd (readReg s rn <<< lslAmount s.config.shiftReading immr imms) s

/-- LSR by the amount of R186 or R187, filling with zeros (R189). -/
def execLsr (rd rn : Reg) (immr imms : BitVec 6) (s : State) : Host.Outcome State Fault Refusal :=
  writeSettingZN rd (readReg s rn >>> lsrAmount s.config.shiftReading immr imms) s

end Sys2Proof.Machine
end

