-- ==== Sys2Proof/Machine/Move.lean ====
section
/-! DEFINITION. Move wide immediate (44_move.md). -/

namespace Sys2Proof.Machine

/-- The diagnostic of MOVZ: emitted when hw is not 0, which is otherwise ignored (R240). -/
def diagHw (hw : BitVec 2) (s : State) : State := if hw = 0 then s else emitDiag .movzHwNonzero s

/-- MOVZ: all 64 bits of Rd are written, with no shift (R240). -/
def execMovz (rd : Reg) (imm16 : BitVec 16) (hw : BitVec 2) (s : State) : Host.Outcome State Fault Refusal :=
  retire (writeReg rd (movzImm imm16) (diagHw hw s))

end Sys2Proof.Machine
end

