-- ==== Sys2Proof/Machine/System.lean ====
section
/-! DEFINITION. HLT and the class UNKNOWN (40_system.md). -/

namespace Sys2Proof.Machine

/-- HLT (R130): `run_bit <- false`, pc + 4. -/
def execHlt (s : State) : Host.Outcome State Fault Refusal := retire (clearRunBit s)

/-- A word of the class UNKNOWN (R132): `diag(UNKNOWN_OPCODE)`, pc + 4. It is no row of the opcode table; the step runs
it when the decoder finds no row (R100). -/
def execUnknown (s : State) : Host.Outcome State Fault Refusal := retire (emitDiag .unknownOpcode s)

end Sys2Proof.Machine
end

