-- ==== Sys2Proof/Machine/Dispatch.lean ====
section
/-! DEFINITION. One arm per instruction, each one call of its meaning (10_state.md R39: execute exactly one handler). -/

namespace Sys2Proof.Machine

def exec (i : Instr) (s : State) : Host.Outcome State Fault Refusal :=
  match i with
  | .hlt => Sys2Proof.Machine.execHlt s
  | .addsReg rd rn rm => Sys2Proof.Machine.execAddsReg rd rn rm s
  | .addsImm rd rn imm12 sh => Sys2Proof.Machine.execAddsImm rd rn imm12 sh s
  | .subsReg rd rn rm => Sys2Proof.Machine.execSubsReg rd rn rm s
  | .subsImm rd rn imm12 sh => Sys2Proof.Machine.execSubsImm rd rn imm12 sh s
  | .adcs rd rn rm => Sys2Proof.Machine.execAdcs rd rn rm s
  | .addReg rd rn rm => Sys2Proof.Machine.execAddReg rd rn rm s
  | .addImm rd rn imm12 sh => Sys2Proof.Machine.execAddImm rd rn imm12 sh s
  | .subReg rd rn rm => Sys2Proof.Machine.execSubReg rd rn rm s
  | .subImm rd rn imm12 sh => Sys2Proof.Machine.execSubImm rd rn imm12 sh s
  | .ands rd rn rm => Sys2Proof.Machine.execAnds rd rn rm s
  | .eor rd rn rm => Sys2Proof.Machine.execEor rd rn rm s
  | .orr rd rn rm => Sys2Proof.Machine.execOrr rd rn rm s
  | .mul rd rn rm => Sys2Proof.Machine.execMul rd rn rm s
  | .lsl rd rn immr imms => Sys2Proof.Machine.execLsl rd rn immr imms s
  | .lsr rd rn immr imms => Sys2Proof.Machine.execLsr rd rn immr imms s
  | .b imm26 => Sys2Proof.Machine.execB imm26 s
  | .br rn => Sys2Proof.Machine.execBr rn s
  | .bCond imm19 cond => Sys2Proof.Machine.execBCond imm19 cond s
  | .cbz rd imm19 => Sys2Proof.Machine.execCbz rd imm19 s
  | .cbnz rd imm19 => Sys2Proof.Machine.execCbnz rd imm19 s
  | .movz rd imm16 hw => Sys2Proof.Machine.execMovz rd imm16 hw s
  | .stur rd rn imm9 => Sys2Proof.Machine.execStur rd rn imm9 s
  | .sturb rd rn imm9 => Sys2Proof.Machine.execSturb rd rn imm9 s
  | .sturh rd rn imm9 => Sys2Proof.Machine.execSturh rd rn imm9 s
  | .ldur rd rn imm9 => Sys2Proof.Machine.execLdur rd rn imm9 s
  | .ldurb rd rn imm9 => Sys2Proof.Machine.execLdurb rd rn imm9 s
  | .ldurh rd rn imm9 => Sys2Proof.Machine.execLdurh rd rn imm9 s

end Sys2Proof.Machine
end

