-- ==== Sys2Proof/Machine/Step.lean ====
section
/-! DEFINITION. One turn of the run loop (10_state.md R38, R39): fetch, decode, one handler, commit. -/

namespace Sys2Proof.Machine

/-- The handler of a fetched word: the instruction's meaning, or that of the class UNKNOWN (R39, R100, R132). -/
def execWord (w : Word32) (s : State) : Host.Outcome State Fault Refusal :=
  match decode s.config.shiftReading w with
  | .ok i    => exec i s
  | .error _ => execUnknown s

/-- While `run_bit` is true: one dispatch step from `next <- current`, then the commit `current <- next`. A fault
commits nothing (R304). With `run_bit` false the run has ended and no step is performed (R38, R131). -/
def step (s : State) : Host.Outcome State Fault Refusal :=
  if s.runBit then
    match fetchWord s with
    | .ok w    => commitOutcome (execWord w (afterFetch w s))
    | .error f => .fault f
  else .refused .runEnded

/-- `s` with an instruction word (the `nbits` low bits of `w`) in memory at the current pc, where the next step fetches:
what the external loader does with one word (R333). -/
def State.withFetchWord (s : State) (nbits w : Nat) : State :=
  { s with mem := s.mem.writeWord s.current.pc (BitVec.ofNat 32 (w % 2 ^ nbits)) }

end Sys2Proof.Machine
end

