-- ==== Sys2Proof/WellFormed.lean ====
section
/-! DEFINITION. Which terms of `Instr` stand for a word (30_encoding.md R101, 42_logic_mul_shift.md R186, R187,
43_branch.md R216). Field widths are in the types; what is left is the LSL/LSR split of the shift class and the
condition codes of B.cond. -/

namespace Sys2Proof

/-- A code kept as `unrecognised` is none of the six recognised ones (R216). -/
def Cond.wellFormed : Cond → Bool
  | .unrecognised code => condOfCode code == .unrecognised code
  | .eq | .ne | .ge | .lt | .gt | .le => true

/-- Does the term stand for a word, under the given reading of the shift class? -/
def Instr.wellFormed (reading : ShiftReading) : Instr → Bool
  | .lsl _ _ immr imms => !shiftIsLsr reading immr imms
  | .lsr _ _ immr imms => shiftIsLsr reading immr imms
  | .bCond _ cond => cond.wellFormed
  | .hlt | .addsReg .. | .addsImm .. | .subsReg .. | .subsImm .. | .adcs .. | .addReg .. | .addImm .. | .subReg ..
  | .subImm .. | .ands .. | .eor .. | .orr .. | .mul .. | .b .. | .br .. | .cbz .. | .cbnz .. | .movz .. | .stur ..
  | .sturb .. | .sturh .. | .ldur .. | .ldurb .. | .ldurh .. => true

end Sys2Proof
end

