-- ==== Sys2Proof/Safety.lean ====
section
/-! DEFINITION. The terms the statements use: what a handler may change (its frame), what the spec lists per instruction
(R33, R35, R72), and the invariant of every step. -/

namespace Sys2Proof.Machine

/-! ## Frames: what a handler leaves unchanged from `s` to `t` -/

/-- No stored entry of *next* changed. -/
def RegistersKept (s t : State) : Prop := ∀ j : Reg, t.next.entry j = s.next.entry j

/-- No byte of memory changed. -/
def MemoryKept (s t : State) : Prop := ∀ a : Word, t.mem.readByte a = s.mem.readByte a

/-- No byte of memory changed but the `n` bytes from `a` on (addresses modulo 2^64). -/
def MemoryKeptOutside (s t : State) (a : Word) (n : Nat) : Prop :=
  ∀ b : Word, n ≤ (b - a).toNat → t.mem.readByte b = s.mem.readByte b

/-- *current* and the parameters are as before, *next*.pc is `pc`, and the ports passed `events`. -/
structure Stepped (s t : State) (pc : Word) (events : List PortEvent) : Prop where
  current : t.current = s.current
  config  : t.config = s.config
  pc      : t.next.pc = pc
  trace   : t.trace = s.trace ++ events

/-- A handler wrote `v` to Rd and nothing else but the flags `f`: index 31 discards the value, every other entry, memory
and `run_bit` are as before, and the pc advances by 4. -/
structure RegisterResult (s t : State) (rd : Reg) (v : Word) (f : Flags) (events : List PortEvent) : Prop where
  written   : rd ≠ xzr → t.next.entry rd = v
  discarded : rd = xzr → RegistersKept s t
  others    : ∀ j : Reg, j ≠ rd → t.next.entry j = s.next.entry j
  flags     : t.next.flags = f
  runBit    : t.runBit = s.runBit
  memory    : MemoryKept s t
  stepped   : Stepped s t (s.current.pc + 4) events

/-- A handler wrote `next.pc` and nothing else. -/
structure PcResult (s t : State) (pc : Word) (events : List PortEvent) : Prop where
  registers : RegistersKept s t
  flags     : t.next.flags = s.next.flags
  runBit    : t.runBit = s.runBit
  memory    : MemoryKept s t
  stepped   : Stepped s t pc events

/-- A store wrote memory and advanced the pc by 4: no register, no flag, no `run_bit`; memory is kept outside the `n`
bytes from `a` on. -/
structure StoreResult (s t : State) (a : Word) (n : Nat) (events : List PortEvent) : Prop where
  registers : RegistersKept s t
  flags     : t.next.flags = s.next.flags
  runBit    : t.runBit = s.runBit
  memory    : MemoryKeptOutside s t a n
  stepped   : Stepped s t (s.current.pc + 4) events

/-! ## What the spec lists per instruction -/

/-- The Rd field of an instruction that writes a general register (R33). -/
def destination : Instr → Option Reg
  | .addsReg rd _ _ | .addsImm rd _ _ _ | .subsReg rd _ _ | .subsImm rd _ _ _ | .adcs rd _ _ | .addReg rd _ _
  | .addImm rd _ _ _ | .subReg rd _ _ | .subImm rd _ _ _ | .ands rd _ _ | .eor rd _ _ | .orr rd _ _ | .mul rd _ _
  | .lsl rd _ _ _ | .lsr rd _ _ _ | .movz rd _ _ | .ldur rd _ _ | .ldurb rd _ _ | .ldurh rd _ _ => some rd
  | .hlt | .b .. | .br .. | .bCond .. | .cbz .. | .cbnz .. | .stur .. | .sturb .. | .sturh .. => none

/-- The instructions that write all four flags (R35). -/
def writesAllFlags : Instr → Bool
  | .addsReg .. | .addsImm .. | .subsReg .. | .subsImm .. | .adcs .. => true
  | .hlt | .addReg .. | .addImm .. | .subReg .. | .subImm .. | .ands .. | .eor .. | .orr .. | .mul .. | .lsl .. | .lsr ..
  | .b .. | .br .. | .bCond .. | .cbz .. | .cbnz .. | .movz .. | .stur .. | .sturb .. | .sturh .. | .ldur .. | .ldurb ..
  | .ldurh .. => false

/-- The instructions that write Z and N only (R35). -/
def writesZN : Instr → Bool
  | .ands .. | .lsl .. | .lsr .. => true
  | .hlt | .addsReg .. | .addsImm .. | .subsReg .. | .subsImm .. | .adcs .. | .addReg .. | .addImm .. | .subReg ..
  | .subImm .. | .eor .. | .orr .. | .mul .. | .b .. | .br .. | .bCond .. | .cbz .. | .cbnz .. | .movz .. | .stur ..
  | .sturb .. | .sturh .. | .ldur .. | .ldurb .. | .ldurh .. => false

/-- The branching handlers (R34, R39): the instructions that set `next.pc` themselves. -/
def isBranch : Instr → Bool
  | .b .. | .br .. | .bCond .. | .cbz .. | .cbnz .. => true
  | .hlt | .addsReg .. | .addsImm .. | .subsReg .. | .subsImm .. | .adcs .. | .addReg .. | .addImm .. | .subReg ..
  | .subImm .. | .ands .. | .eor .. | .orr .. | .mul .. | .lsl .. | .lsr .. | .movz .. | .stur .. | .sturb .. | .sturh ..
  | .ldur .. | .ldurb .. | .ldurh .. => false

/-- What a load or store accesses: the address its rule computes and how many bytes from there on it moves (R72, R270,
R271). `none`: the instruction does not access data memory. -/
def dataAccess (s : State) : Instr → Option (Word × Nat)
  | .stur _ rn imm9 | .ldur _ rn imm9 => some (effectiveAddress s rn imm9, 8)
  | .sturb _ rn imm9 => some (narrowStoreAddress s rn imm9, 1)
  | .sturh _ rn imm9 => some (narrowStoreAddress s rn imm9, 2)
  | .ldurb _ rn imm9 => some (effectiveAddress s rn imm9, 1)
  | .ldurh _ rn imm9 => some (effectiveAddress s rn imm9, 2)
  | .hlt | .addsReg .. | .addsImm .. | .subsReg .. | .subsImm .. | .adcs .. | .addReg .. | .addImm .. | .subReg ..
  | .subImm .. | .ands .. | .eor .. | .orr .. | .mul .. | .lsl .. | .lsr .. | .b .. | .br .. | .bCond .. | .cbz ..
  | .cbnz .. | .movz .. => none

/-- The stores. -/
def isStore : Instr → Bool
  | .stur .. | .sturb .. | .sturh .. => true
  | .hlt | .addsReg .. | .addsImm .. | .subsReg .. | .subsImm .. | .adcs .. | .addReg .. | .addImm .. | .subReg ..
  | .subImm .. | .ands .. | .eor .. | .orr .. | .mul .. | .lsl .. | .lsr .. | .b .. | .br .. | .bCond .. | .cbz ..
  | .cbnz .. | .movz .. | .ldur .. | .ldurb .. | .ldurh .. => false

/-- How many `load_word` and how many `store_word` commands an instruction issues in a state (R72): a halfword that
crosses a word takes two words, any other narrow access one; a narrow store reads each word before it writes it. -/
def portTraffic (s : State) : Instr → Nat × Nat
  | .ldur .. => (2, 0)
  | .stur .. => (0, 2)
  | .ldurb .. => (1, 0)
  | .sturb .. => (1, 1)
  | .ldurh _ rn imm9 => if (effectiveAddress s rn imm9).toNat % 4 = 3 then (2, 0) else (1, 0)
  | .sturh _ rn imm9 => if (narrowStoreAddress s rn imm9).toNat % 4 = 3 then (2, 2) else (1, 1)
  | .hlt | .addsReg .. | .addsImm .. | .subsReg .. | .subsImm .. | .adcs .. | .addReg .. | .addImm .. | .subReg ..
  | .subImm .. | .ands .. | .eor .. | .orr .. | .mul .. | .lsl .. | .lsr .. | .b .. | .br .. | .bCond .. | .cbz ..
  | .cbnz .. | .movz .. => (0, 0)

/-- The kinds of a port event, for counting. -/
def PortEvent.isFetch : PortEvent → Bool
  | .fetch .. => true
  | .load .. | .store .. | .diag .. => false
def PortEvent.isLoad : PortEvent → Bool
  | .load .. => true
  | .fetch .. | .store .. | .diag .. => false
def PortEvent.isStore : PortEvent → Bool
  | .store .. => true
  | .fetch .. | .load .. | .diag .. => false
def PortEvent.isDiag : PortEvent → Bool
  | .diag .. => true
  | .fetch .. | .load .. | .store .. => false

/-- Is the byte at `a + k` mapped for every `k` below `n`? -/
def BytesMapped (c : Config) (a : Word) (n : Nat) : Prop := ∀ k : Nat, k < n → isMapped c (a + BitVec.ofNat 64 k) = true

/-- What `ALIGN_POLICY` asks of an address that must satisfy `ok`: nothing under `BYTEWISE` (R65, R67). -/
def AlignmentAllows (c : Config) (ok : Prop) : Prop := c.alignPolicy = .bytewise ∨ ok

/-! ## The invariant -/

/-- Memory lists bytes at mapped addresses only: `M` is defined where `MAPPED` holds (R61). -/
def MemoryInsideMapped (s : State) : Prop :=
  ∀ a : Word, s.mem.readByte a ≠ unlistedByte → isMapped s.config a = true

/-- What holds at the start of every step of a run: *next* equals *current* (R45), memory is in canonical form and lies
inside the mapped addresses (R61). -/
structure Invariant (s : State) : Prop where
  buffers : s.next = s.current
  memory  : s.mem.wf = true
  mapped  : MemoryInsideMapped s

/-- What the environment must have done before the first step (R333, R75): `INIT_MEM` is a memory in canonical form on
mapped bytes, and `RESET_PC` is a multiple of 4 whose four bytes are mapped. -/
structure BootValid (c : Config) (b : Boot) : Prop where
  memory    : Memory.wf ⟨b.initMem⟩ = true
  mapped    : MemoryInsideMapped (State.resetWith c b)
  aligned   : b.resetPc.toNat % 4 = 0
  pcMapped  : BytesMapped c b.resetPc 4

/-- A safe step: it does not fault. -/
def StepSafe (s : State) : Prop := ∀ f : Fault, step s ≠ .fault f

/-- The parameters of a machine whose memory is total and lenient: every address mapped, misaligned accesses done byte
by byte (R65, R67, D6). -/
def LenientMemory (c : Config) : Prop := (∀ a : Word, isMapped c a = true) ∧ c.alignPolicy = .bytewise

end Sys2Proof.Machine
end

