-- ==== Sys2Proof/Certificates/Slice0/Obligations.lean ====
section
/-! DEFINITION. The statements about the machine, each a proposition to be proved. "R<n>" is a rule of spec/, "D<n>" a
decision of the spec's own (spec/92_eei_decisions.md). Every statement about all states is about every setting of the
parameters of R10, which are data in the state. -/

open Sys2Proof Sys2Proof.Machine

namespace Sys2Proof.Claims

/-- Match and mask of the rows of R101. -/
def tableRows : List (Word32 × Word32) :=
  [(0xD4400000, 0xFFE00000), (0xAB000000, 0xFFE00000), (0xB1000000, 0xFF800000), (0xEB000000, 0xFFE00000),
   (0xF1000000, 0xFF800000), (0xBA000000, 0xFFE00000), (0x8B000000, 0xFFE00000), (0x91000000, 0xFF800000),
   (0xCB000000, 0xFFE00000), (0xD1000000, 0xFF800000), (0xEA000000, 0xFFE00000), (0xCA000000, 0xFFE00000),
   (0xAA000000, 0xFFE00000), (0x9B000000, 0xFFE00000)] ++
  [(0xD3400000, 0xFFC00000), (0x14000000, 0xFC000000), (0xD6000000, 0xFFE00000), (0x54000000, 0xFF000000),
   (0xB4000000, 0xFF000000), (0xB5000000, 0xFF000000), (0xD2800000, 0xFF800000), (0xF8000000, 0xFFE00000),
   (0x38000000, 0xFFE00000), (0x78000000, 0xFFE00000), (0xF8400000, 0xFFE00000), (0x38400000, 0xFFE00000),
   (0x78400000, 0xFFE00000)]

/-- Is the word in a row of R101? -/
def InTable (w : Word32) : Prop := ∃ row ∈ tableRows, w &&& row.2 = row.1

/-- The bits of an instruction's word that the decoder or its rule reads (R91, R105); the others are ignored. -/
def readBits : Instr → Word32
  | .hlt => 0xFFE00000
  | .addsReg .. | .subsReg .. | .adcs .. | .addReg .. | .subReg .. | .ands .. | .eor .. | .orr .. | .mul .. => 0xFFFF03FF
  | .br .. => 0xFFE003E0
  | .bCond .. => 0xFFFFFFEF
  | .stur .. | .sturb .. | .sturh .. | .ldur .. | .ldurb .. | .ldurh .. => 0xFFFFF3FF
  | .addsImm .. | .subsImm .. | .addImm .. | .subImm .. | .lsl .. | .lsr .. | .b .. | .cbz .. | .cbnz .. | .movz .. =>
    0xFFFFFFFF

/-- `immv` of R97, as a number. -/
def immv (imm12 : BitVec 12) (sh : ImmShift) : Word :=
  BitVec.ofNat 64 (imm12.toNat * (if sh = .lsl12 then 4096 else 1))

/-- `sh` of R97 as the decoder must read it: 01 is `LSL #12`. -/
def shOf (w : Word32) : ImmShift := if w.getLsbD 22 then .lsl12 else .lsl0

/-- A word-scaled signed offset as a 64-bit value (R95, R96). -/
def scaled {n : Nat} (imm : BitVec n) : Word := BitVec.ofInt 64 (4 * imm.toInt)

/-- Z and N as R140 sets them. -/
def ZNFlags (f : Flags) (r : Word) : Prop := (f.z = true ↔ r = 0) ∧ (f.n = true ↔ r.toInt < 0)

/-- The flags of `set_znvc_add(a, b, r)` (R141). -/
def AddFlags (f : Flags) (a b r : Word) : Prop :=
  ZNFlags f r ∧ (f.c = true ↔ r.toNat < a.toNat) ∧ f.v = ((a ^^^ r) &&& (b ^^^ r)).getLsbD 63

/-- The flags of `set_znvc_sub(a, b, r)` (R142). -/
def SubFlags (f : Flags) (a b r : Word) : Prop :=
  ZNFlags f r ∧ (f.c = true ↔ b.toNat ≤ a.toNat) ∧ f.v = ((a ^^^ b) &&& (a ^^^ r)).getLsbD 63

/-- The value of a carry bit. -/
def carryNat (c : Bool) : Nat := if c then 1 else 0

/-- The flags of ADCS under each setting of `ADCS_CARRY` (R143). -/
def AdcsFlags (setting : AdcsCarry) (f : Flags) (a b : Word) (cin : Bool) (r : Word) : Prop :=
  match setting with
  | .docFormula => AddFlags f a b r
  | .exact => ZNFlags f r ∧ (f.c = true ↔ 2 ^ 64 ≤ a.toNat + b.toNat + carryNat cin) ∧
      (f.v = true ↔ ¬ (-(2 ^ 63) ≤ a.toInt + b.toInt + carryNat cin ∧ a.toInt + b.toInt + carryNat cin ≤ 2 ^ 63 - 1))

/-- The test of a recognised condition on Z and N (R216). -/
def condTrue (f : Flags) : Cond → Prop
  | .eq => f.z = true
  | .ne => f.z = false
  | .ge => f.n = false
  | .lt => f.n = true
  | .gt => f.z = false ∧ f.n = false
  | .le => f.z = true ∨ f.n = true
  | .unrecognised _ => False

/-- Byte `k` of a 64-bit value. -/
def byteAt (v : Word) (k : Nat) : Byte := v.extractLsb' (8 * k) 8

/-- Address `a + k`, modulo 2^64. -/
def addr (a : Word) (k : Nat) : Word := a + BitVec.ofNat 64 k

/-- Every word with op11 in `lo` to `hi` decodes to `i` of that word, under every reading of the shift class. -/
def DecodesAs (lo hi : BitVec 11) (i : Word32 → Instr) : Prop :=
  ∀ (r : ShiftReading) (w : Word32), lo ≤ w.extractLsb' 21 11 → w.extractLsb' 21 11 ≤ hi → decode r w = .ok (i w)

/-- Every word with op11 in `lo` to `hi` is in no row of the opcode table. -/
def DecodesToNone (lo hi : BitVec 11) : Prop :=
  ∀ (r : ShiftReading) (w : Word32), lo ≤ w.extractLsb' 21 11 → w.extractLsb' 21 11 ≤ hi →
    decode r w = .error (.unrecognisedOpcode w)

/-- The register fields of R91. -/
def rd (w : Word32) : Reg := (w.extractLsb' 0 5).toFin
def rn (w : Word32) : Reg := (w.extractLsb' 5 5).toFin
def rm (w : Word32) : Reg := (w.extractLsb' 16 5).toFin
/-- The imm9, imm12 and imm19 fields of R91. -/
def imm9 (w : Word32) : BitVec 9 := w.extractLsb' 12 9
def imm12 (w : Word32) : BitVec 12 := w.extractLsb' 10 12
def imm19 (w : Word32) : BitVec 19 := w.extractLsb' 5 19

end Sys2Proof.Claims

open Sys2Proof.Claims

/-! ## Encoding (30_encoding.md) -/

/-- Decoding the word of a well-formed instruction gives the instruction back, for every operand at every value, under
both readings of the shift class (R93, R101; the opcode values and some positions are the spec's decisions D1, D2). -/
def Obligations.EncodeThenDecodeGivesTheInstruction : Prop :=
  ∀ (r : ShiftReading) (i : Instr), i.wellFormed r = true → decode r (encode i) = .ok i

/-- The other direction: a decoded instruction is well-formed, and its encoding agrees with the word on every bit the
core reads (R91, R100, R105; decisions D1, D2, D19). -/
def Obligations.DecodedInstructionKeepsEveryReadBit : Prop :=
  ∀ (r : ShiftReading) (w : Word32) (i : Instr), decode r w = .ok i →
    i.wellFormed r = true ∧ encode i &&& readBits i = w &&& readBits i

/-- Two words that agree on the bits the core reads decode alike: the bits of R99 and R105 are ignored (D3, D19). -/
def Obligations.UnreadBitsAreIgnored : Prop :=
  ∀ (r : ShiftReading) (w w' : Word32) (i : Instr), decode r w = .ok i → w &&& readBits i = w' &&& readBits i →
    decode r w' = .ok i

/-- A word decodes to an instruction exactly when a match and mask of R101 holds; every other word is rejected by name,
as the class UNKNOWN (R100, R101, R103; D1, D4). -/
def Obligations.DecodeSucceedsExactlyOnTheOpcodeTable : Prop :=
  ∀ (r : ShiftReading) (w : Word32),
    (InTable w → ∃ i, decode r w = .ok i) ∧ (¬ InTable w → decode r w = .error (.unrecognisedOpcode w))

/-- Words of the spec's examples decode to the instructions they are written for (R130, R146, R149, R188, R189, R215,
R240, R250, R262), and the A64 NOP to none (R105). -/
def Obligations.WordsOfTheSpecDecode : Prop :=
  decode .a64 0xD4400000 = .ok .hlt ∧ decode .a64 0xAB030041 = .ok (.addsReg 1 2 3) ∧
  decode .a64 0xF1000441 = .ok (.subsImm 1 2 1 .lsl0) ∧ decode .a64 0xD37CEC41 = .ok (.lsl 1 2 60 59) ∧
  decode .a64 0xD344FC41 = .ok (.lsr 1 2 4 63) ∧ decode .a64 0x54000080 = .ok (.bCond 4 .eq) ∧
  decode .a64 0xD2A24681 = .ok (.movz 1 0x1234 1) ∧ decode .a64 0xF8000041 = .ok (.stur 1 2 0) ∧
  decode .a64 0x78402041 = .ok (.ldurh 1 2 2) ∧ decode .a64 0xD503201F = .error (.unrecognisedOpcode 0xD503201F)

/-- The load/store offset is the field at [20:12] sign-extended from its bit 8: every bit of it (R94). -/
def Obligations.LoadStoreOffsetIsSignExtendedField : Prop :=
  ∀ (w : Word32) (k : Nat), k < 64 → (off9 (fieldImm9 w)).getLsbD k = w.getLsbD (12 + min k 8)

/-- The conditional-branch offset is the field at [23:5] sign-extended from its bit 18 and multiplied by 4, and encoding a
displacement and decoding it gives the displacement (R95, and S5 of 95_test_vectors.md). -/
def Obligations.BranchOffsetRoundTrip : Prop :=
  (∀ w : Word32, off19 (fieldImm19 w) = BitVec.ofInt 64 (4 * (w.extractLsb' 5 19).toInt)) ∧
  (∀ d : Int, d % 4 = 0 → -(2 ^ 20) ≤ d → d ≤ 2 ^ 20 - 4 → off19 (BitVec.ofInt 19 (d / 4)) = BitVec.ofInt 64 d) ∧
  (∀ d : Int, d % 4 = 0 → -(2 ^ 27) ≤ d → d ≤ 2 ^ 27 - 4 → off26 (BitVec.ofInt 26 (d / 4)) = BitVec.ofInt 64 d)

/-! ## Registers and the double buffer (10_state.md) -/

/-- Index 31 reads as 0 and discards writes; any other entry reads back, after the commit, the value written to it, and
every other entry is as before (R31, R32). The stored entry 31 is never written and never read: an inference the spec
marks as its own ("[derived: from rule R31 and rule R32]", in R32). -/
def Obligations.ZeroRegisterReadsZeroAndDiscardsWrites : Prop :=
  (∀ s : State, readReg s xzr = 0) ∧ (∀ (s : State) (i : Reg), i ≠ xzr → readReg s i = s.current.registers[i]) ∧
  (∀ (s : State) (v : Word), writeReg xzr v s = s) ∧
  (∀ (s : State) (i : Reg) (v : Word), i ≠ xzr → readReg (commit (writeReg i v s)) i = v) ∧
  (∀ (s : State) (i j : Reg) (v : Word), j ≠ i → (writeReg i v s).next.registers[j] = s.next.registers[j]) ∧
  (∀ (s : State) (i : Reg) (v : Word), i ≠ xzr → (writeReg i v s).next.registers[i] = v) ∧
  (∀ (s : State) (i : Reg) (v : Word), (writeReg i v s).current = s.current ∧
    (writeReg i v s).next.registers[31] = s.next.registers[31]) ∧
  (∀ (s : State) (i : Reg) (v : Word),
    readReg { s with current := { s.current with registers := s.current.registers.set 31 v } } i = readReg s i)

/-- No handler writes *current*: it ends with the copy its step began with, and the parameters too (R37; R38: the core
never commits). -/
def Obligations.HandlersWriteOnlyNext : Prop :=
  ∀ (i : Instr) (s t : State), exec i s = .next t → t.current = s.current ∧ t.config = s.config

/-- No handler reads *next*: with another *next* copy it ends alike, and each entry, flag and the pc of *next* is either
written with the same value or left as it was in each (R37, R341). -/
def Obligations.HandlersReadOnlyCurrent : Prop :=
  ∀ (i : Instr) (s : State) (n : ArchState),
    (∀ f, exec i s = .fault f → exec i { s with next := n } = .fault f) ∧
    ∀ t, exec i s = .next t → ∃ t', exec i { s with next := n } = .next t' ∧ t'.mem = t.mem ∧ t'.runBit = t.runBit ∧
      t'.trace = t.trace ∧ t'.next.pc = t.next.pc ∧
      (∀ j : Reg, t'.next.entry j = t.next.entry j ∨
        (t.next.entry j = s.next.entry j ∧ t'.next.entry j = n.entry j)) ∧
      (t'.next.flags.z = t.next.flags.z ∧ t'.next.flags.n = t.next.flags.n ∨
        t.next.flags.z = s.next.flags.z ∧ t.next.flags.n = s.next.flags.n ∧
        t'.next.flags.z = n.flags.z ∧ t'.next.flags.n = n.flags.n) ∧
      (t'.next.flags.c = t.next.flags.c ∧ t'.next.flags.v = t.next.flags.v ∨
        t.next.flags.c = s.next.flags.c ∧ t.next.flags.v = s.next.flags.v ∧
        t'.next.flags.c = n.flags.c ∧ t'.next.flags.v = n.flags.v)

/-- Nothing observes *next* between steps, nor the record of the ports: a step from a state with another *next* is the same
step, and with another record it differs in nothing but that the same events follow it (R44, R45, R49). -/
def Obligations.NextBufferAndTraceAreUnobservable : Prop :=
  (∀ (s : State) (n : ArchState), step { s with next := n } = step s) ∧
  (∀ (s : State) (tr : List PortEvent),
    (∀ f, step s = .fault f → step { s with trace := tr } = .fault f) ∧
    (∀ r, step s = .refused r → step { s with trace := tr } = .refused r) ∧
    ∀ t, step s = .next t → ∃ events, t.trace = s.trace ++ events ∧
      step { s with trace := tr } = .next { t with trace := tr ++ events })

/-- While `run_bit` is true and the word at the pc can be fetched, a step is: *next* set to *current*, the fetch, the
meaning of the decoded instruction, and the commit of *next* into *current*; a fault commits nothing (R38, R39). -/
def Obligations.StepRunsTheDecodedInstruction : Prop :=
  (∀ (s : State) (i : Instr), s.runBit = true → AlignmentAllows s.config (s.current.pc.toNat % 4 = 0) →
    BytesMapped s.config s.current.pc 4 →
    decode s.config.shiftReading (s.mem.readWord s.current.pc) = .ok i →
    step s = commitOutcome (exec i { s with
      next := s.current
      trace := s.trace ++ [.fetch s.current.pc (s.mem.readWord s.current.pc)] })) ∧
  (∀ t : State, commitOutcome (.next t) = .next { t with current := t.next }) ∧
  (∀ f : Fault, commitOutcome (.fault f) = .fault f) ∧
  (∀ r : Refusal, commitOutcome (.refused r) = .refused r)

/-- A step that goes on ran with `run_bit` true, and ends committed: *next* equals *current*, for every register, the pc
and every flag; the parameters are as before (R38, R45). -/
def Obligations.StepEndsCommitted : Prop :=
  ∀ s t : State, step s = .next t → s.runBit = true ∧ t.next = t.current ∧ t.config = s.config

/-- A word outside the opcode table emits `UNKNOWN_OPCODE` and advances the pc by 4; every register, flag, byte of memory
and `run_bit` is as before (R132). -/
def Obligations.UnrecognisedWordAdvancesPcOnly : Prop :=
  ∀ s : State, s.runBit = true → AlignmentAllows s.config (s.current.pc.toNat % 4 = 0) →
    BytesMapped s.config s.current.pc 4 → ¬ InTable (s.mem.readWord s.current.pc) →
    step s = .next { s with
      current := { s.current with pc := s.current.pc + 4 }
      next := { s.current with pc := s.current.pc + 4 }
      trace := s.trace ++ [.fetch s.current.pc (s.mem.readWord s.current.pc), .diag .unknownOpcode] }

/-- No step is performed once `run_bit` is false (R38, R131). -/
def Obligations.NoStepOnceRunBitIsFalse : Prop :=
  ∀ s : State, s.runBit = false → step s = .refused .runEnded

/-- HLT clears `run_bit` and advances the pc by 4; no register, flag or byte of memory changes, and after the commit no
step is performed; no other instruction writes `run_bit` (R130; the advance of the pc is decision D16). That no step is
performed is an inference the spec marks as its own (R131), and that `step` answers it with the refusal `runEnded` is the
model's choice (assumption log 7). -/
def Obligations.HltClearsRunBitAndEndsTheRun : Prop :=
  DecodesAs 0x6A2 0x6A2 (fun _ => .hlt) ∧
  (∀ (i : Instr) (s t : State), exec i s = .next t → i ≠ .hlt → t.runBit = s.runBit) ∧
  ∀ s : State, ∃ t, exec .hlt s = .next t ∧ t.runBit = false ∧ RegistersKept s t ∧ t.next.flags = s.next.flags ∧
    MemoryKept s t ∧ Stepped s t (s.current.pc + 4) [] ∧ step (commit t) = .refused .runEnded

/-- After a step `run_bit` is false exactly when the word fetched was HLT: nothing else ends a run normally (R36, R38). -/
def Obligations.RunBitIsFalseAfterExactlyHlt : Prop :=
  ∀ s t : State, step s = .next t →
    (t.runBit = false ↔ decode s.config.shiftReading (s.mem.readWord s.current.pc) = .ok .hlt)

/-- Every non-branching handler falls through to pc + 4, modulo 2^64 (R34). -/
def Obligations.NonBranchingHandlersAdvancePcByFour : Prop :=
  ∀ (i : Instr) (s t : State), exec i s = .next t → isBranch i = false → t.next.pc = s.current.pc + 4

/-- From a word-aligned pc only BR can lead to a pc that is not word-aligned (R34, R211, R213, C2). -/
def Obligations.PcStaysAlignedUnlessBr : Prop :=
  ∀ (i : Instr) (s t : State), exec i s = .next t → (∀ rn, i ≠ .br rn) → s.current.pc.toNat % 4 = 0 →
    t.next.pc.toNat % 4 = 0

/-- A handler writes at most the register in its Rd field, and only for the instructions of R33; never entry 31. -/
def Obligations.OnlyTheDestinationRegisterChanges : Prop :=
  ∀ (i : Instr) (s t : State) (j : Reg), exec i s = .next t → t.next.entry j ≠ s.next.entry j →
    destination i = some j ∧ j ≠ xzr

/-- The writers of the flags are exactly ADDS, SUBS and ADCS (all four) and ANDS, LSL and LSR (Z and N); ADCS reads C,
B.cond reads Z and N, and no other instruction reads a flag (R35): with other *current* flags it does the same. -/
def Obligations.FlagWritersAndReaders : Prop :=
  (∀ (i : Instr) (s t : State), exec i s = .next t → writesAllFlags i = false →
    t.next.flags.c = s.next.flags.c ∧ t.next.flags.v = s.next.flags.v ∧
    (writesZN i = false → t.next.flags = s.next.flags)) ∧
  (∀ (i : Instr) (s t : State) (f : Flags), exec i s = .next t →
    ((∃ d n m, i = .adcs d n m) → f.c = s.current.flags.c) →
    ((∃ o c, i = .bCond o c) → f.z = s.current.flags.z ∧ f.n = s.current.flags.n) →
    exec i { s with current := { s.current with flags := f } } =
      .next { t with current := { s.current with flags := f } })

/-- Memory changes only by stores, and only in the bytes the store's rule moves: from the address it computes, 8, 1 or 2
bytes (R72, R73). -/
def Obligations.OnlyStoresChangeMemory : Prop :=
  ∀ (i : Instr) (s t : State), exec i s = .next t →
    (isStore i = false → MemoryKept s t) ∧
    ∀ (a : Word) (n : Nat), dataAccess s i = some (a, n) → MemoryKeptOutside s t a n

/-- The word commands of each instruction are those of R72, every load before every store, and with its one fetch a step
emits at most one diagnostic (R41, R44, R72). -/
def Obligations.PortTrafficOfEachStep : Prop :=
  (∀ (i : Instr) (s t : State), exec i s = .next t → ∃ events, t.trace = s.trace ++ events ∧
    (events.countP PortEvent.isLoad, events.countP PortEvent.isStore) = portTraffic s i ∧
    events.countP PortEvent.isFetch = 0 ∧ events.countP PortEvent.isDiag ≤ 1 ∧
    events.Pairwise (fun e e' => PortEvent.isStore e = true → PortEvent.isLoad e' = false)) ∧
  (∀ s t : State, step s = .next t → ∃ events,
    t.trace = s.trace ++ .fetch s.current.pc (s.mem.readWord s.current.pc) :: events ∧
    events.countP PortEvent.isFetch = 0 ∧ events.countP PortEvent.isDiag ≤ 1)

/-! ## Reset and the invariant (70_reset_and_hazards.md) -/

/-- Reset sets every piece of state at once, from the parameters (R330): the registers to `INIT_REGS`, the pc to
`RESET_PC`, the flags to false, `run_bit` to true, *next* to *current*, memory to `INIT_MEM`; by default X0 to X30 are 0. -/
def Obligations.ResetSetsEveryField : Prop :=
  ∀ (c : Config) (b : Boot),
    (∀ (k : Nat) (h : k < 31), (State.resetWith c b).current.registers[k] = b.initRegs[k]) ∧
    (State.resetWith c b).current.pc = b.resetPc ∧
    (State.resetWith c b).current.flags = ⟨false, false, false, false⟩ ∧
    (State.resetWith c b).runBit = true ∧
    (State.resetWith c b).next = (State.resetWith c b).current ∧
    (∀ a : Word, (State.resetWith c b).mem.readByte a = readCells a.toNat b.initMem) ∧
    (∀ (k : Nat) (h : k < 31), State.reset.current.registers[k] = 0)

/-- `State.reset` is reset at the defaults of R10; its pc 0, its mapping of every address and its empty memory are the
model's choices (assumption log 2, 3, 5). The invariant holds there, and after every reset from a valid boot. -/
def Obligations.ResetMeetsTheInvariant : Prop :=
  Invariant State.reset ∧ (∀ (c : Config) (b : Boot), BootValid c b → Invariant (State.resetWith c b)) ∧
  (∀ (c : Config) (b : Boot), BootValid c b → ∀ f, step (State.resetWith c b) = .fault f → f.code = 3 ∨ f.code = 4)

/-- Every step keeps the invariant, from every state: *next* equals *current*, memory stays canonical and inside the
mapped addresses (R45, R61, R66). -/
def Obligations.EveryStepKeepsTheInvariant : Prop :=
  ∀ s t : State, Invariant s → step s = .next t → Invariant t

/-! ## Arithmetic and flags (41_arith.md) -/

/-- ADDS, register and immediate (R141, R146, R147): the sum modulo 2^64 to Rd, all four flags by R141, pc + 4, nothing
else. With Rd = 31 the sum is discarded and the flags are set all the same. -/
def Obligations.AddsWritesSumAndFlags : Prop :=
  DecodesAs 0x558 0x558 (fun w => .addsReg (rd w) (rn w) (rm w)) ∧
  DecodesAs 0x588 0x58B (fun w => .addsImm (rd w) (rn w) (imm12 w) (shOf w)) ∧ DecodesToNone 0x58C 0x58F ∧
  (∀ (d n m : Reg) (s : State), ∃ t f, exec (.addsReg d n m) s = .next t ∧
    RegisterResult s t d (readReg s n + readReg s m) f [] ∧
    AddFlags f (readReg s n) (readReg s m) (readReg s n + readReg s m)) ∧
  (∀ (d n : Reg) (imm : BitVec 12) (sh : ImmShift) (s : State), ∃ t f, exec (.addsImm d n imm sh) s = .next t ∧
    RegisterResult s t d (readReg s n + immv imm sh) f [] ∧
    AddFlags f (readReg s n) (immv imm sh) (readReg s n + immv imm sh))

/-- SUBS, register and immediate (R142, R148, R149): the difference modulo 2^64 to Rd, all four flags by R142, pc + 4,
nothing else. -/
def Obligations.SubsWritesDifferenceAndFlags : Prop :=
  DecodesAs 0x758 0x758 (fun w => .subsReg (rd w) (rn w) (rm w)) ∧
  DecodesAs 0x788 0x78B (fun w => .subsImm (rd w) (rn w) (imm12 w) (shOf w)) ∧ DecodesToNone 0x78C 0x78F ∧
  (∀ (d n m : Reg) (s : State), ∃ t f, exec (.subsReg d n m) s = .next t ∧
    RegisterResult s t d (readReg s n - readReg s m) f [] ∧
    SubFlags f (readReg s n) (readReg s m) (readReg s n - readReg s m)) ∧
  (∀ (d n : Reg) (imm : BitVec 12) (sh : ImmShift) (s : State), ∃ t f, exec (.subsImm d n imm sh) s = .next t ∧
    RegisterResult s t d (readReg s n - immv imm sh) f [] ∧
    SubFlags f (readReg s n) (immv imm sh) (readReg s n - immv imm sh))

/-- CMP and CMN, in both forms, set the flags of R142 and R141 and write no register (R145, R150, R151). -/
def Obligations.CompareWritesFlagsAndNoRegister : Prop :=
  ∀ (n m : Reg) (imm : BitVec 12) (sh : ImmShift) (s : State),
    (∃ t, exec (.subsReg xzr n m) s = .next t ∧ t.next.registers = s.next.registers ∧
      t.next.pc = s.current.pc + 4 ∧ SubFlags t.next.flags (readReg s n) (readReg s m) (readReg s n - readReg s m)) ∧
    (∃ t, exec (.subsImm xzr n imm sh) s = .next t ∧ t.next.registers = s.next.registers ∧
      t.next.pc = s.current.pc + 4 ∧ SubFlags t.next.flags (readReg s n) (immv imm sh) (readReg s n - immv imm sh)) ∧
    (∃ t, exec (.addsReg xzr n m) s = .next t ∧ t.next.registers = s.next.registers ∧
      t.next.pc = s.current.pc + 4 ∧ AddFlags t.next.flags (readReg s n) (readReg s m) (readReg s n + readReg s m)) ∧
    (∃ t, exec (.addsImm xzr n imm sh) s = .next t ∧ t.next.registers = s.next.registers ∧
      t.next.pc = s.current.pc + 4 ∧ AddFlags t.next.flags (readReg s n) (immv imm sh) (readReg s n + immv imm sh))

/-- ADCS (R143, R152): the sum with the C of *current*, and the flags of either setting of `ADCS_CARRY` (D12). -/
def Obligations.AdcsAddsWithCarryUnderBothSettings : Prop :=
  DecodesAs 0x5D0 0x5D0 (fun w => .adcs (rd w) (rn w) (rm w)) ∧
  ∀ (d n m : Reg) (s : State),
    let r := BitVec.ofNat 64 ((readReg s n).toNat + (readReg s m).toNat + carryNat s.current.flags.c)
    ∃ t f, exec (.adcs d n m) s = .next t ∧ RegisterResult s t d r f [] ∧
      AdcsFlags s.config.adcsCarry f (readReg s n) (readReg s m) s.current.flags.c r

/-- ADD and SUB, register and immediate (R153 to R156): the result modulo 2^64 to Rd, no flag, pc + 4, nothing else. -/
def Obligations.AddAndSubWriteRdAndNoFlag : Prop :=
  DecodesAs 0x458 0x458 (fun w => .addReg (rd w) (rn w) (rm w)) ∧
  DecodesAs 0x488 0x48B (fun w => .addImm (rd w) (rn w) (imm12 w) (shOf w)) ∧ DecodesToNone 0x48C 0x48F ∧
  DecodesAs 0x658 0x658 (fun w => .subReg (rd w) (rn w) (rm w)) ∧
  DecodesAs 0x688 0x68B (fun w => .subImm (rd w) (rn w) (imm12 w) (shOf w)) ∧ DecodesToNone 0x68C 0x68F ∧
  ∀ (d n m : Reg) (imm : BitVec 12) (sh : ImmShift) (s : State),
    (∃ t, exec (.addReg d n m) s = .next t ∧ RegisterResult s t d (readReg s n + readReg s m) s.next.flags []) ∧
    (∃ t, exec (.addImm d n imm sh) s = .next t ∧ RegisterResult s t d (readReg s n + immv imm sh) s.next.flags []) ∧
    (∃ t, exec (.subReg d n m) s = .next t ∧ RegisterResult s t d (readReg s n - readReg s m) s.next.flags []) ∧
    (∃ t, exec (.subImm d n imm sh) s = .next t ∧ RegisterResult s t d (readReg s n - immv imm sh) s.next.flags [])

/-- The C and V of an addition are the carry out of bit 63 and the signed overflow, those of a subtraction "no borrow" and
the signed overflow (R141, R142, an inference the spec marks [derived]). -/
def Obligations.CarryAndOverflowAreExact : Prop :=
  ∀ a b : Word,
    ((flagsAdd a b (a + b)).c = true ↔ 2 ^ 64 ≤ a.toNat + b.toNat) ∧
    ((flagsAdd a b (a + b)).v = true ↔ ¬ (-(2 ^ 63) ≤ a.toInt + b.toInt ∧ a.toInt + b.toInt ≤ 2 ^ 63 - 1)) ∧
    ((flagsSub a b (a - b)).c = true ↔ (a - b).toNat + b.toNat = a.toNat) ∧
    ((flagsSub a b (a - b)).v = true ↔ ¬ (-(2 ^ 63) ≤ a.toInt - b.toInt ∧ a.toInt - b.toInt ≤ 2 ^ 63 - 1))

/-- The two settings of `ADCS_CARRY` give the same Z, N and V, and differ in C exactly when b is all ones and the carry-in
is 1, where `EXACT` sets it (R143, an inference the spec marks [derived]). -/
def Obligations.AdcsSettingsDifferOnlyInOneCarry : Prop :=
  ∀ (a b : Word) (cin : Bool),
    let doc := flagsAdcs .docFormula a b cin (a + b + carryIn cin)
    let exact := flagsAdcs .exact a b cin (a + b + carryIn cin)
    doc.z = exact.z ∧ doc.n = exact.n ∧ doc.v = exact.v ∧
      (doc.c ≠ exact.c ↔ b = BitVec.allOnes 64 ∧ cin = true) ∧ (doc.c ≠ exact.c → exact.c = true)

/-- After a comparison that did not overflow, the conditions GE, LT, GT and LE, and EQ and NE always, are the signed
comparisons of the operands (R216, by inference). -/
def Obligations.ConditionsCompareSignedWithoutOverflow : Prop :=
  ∀ a b : Word,
    condHolds (flagsSub a b (a - b)) .eq = some (decide (a = b)) ∧
    condHolds (flagsSub a b (a - b)) .ne = some (decide (a ≠ b)) ∧
    ((flagsSub a b (a - b)).v = false →
      condHolds (flagsSub a b (a - b)) .lt = some (decide (a.toInt < b.toInt)) ∧
      condHolds (flagsSub a b (a - b)) .ge = some (decide (b.toInt ≤ a.toInt)) ∧
      condHolds (flagsSub a b (a - b)) .gt = some (decide (b.toInt < a.toInt)) ∧
      condHolds (flagsSub a b (a - b)) .le = some (decide (a.toInt ≤ b.toInt)))

/-! ## Logic, multiply, shift (42_logic_mul_shift.md) -/

/-- ANDS (R140, R180): the bitwise AND to Rd; Z and N from it; C and V keep their values. -/
def Obligations.AndsWritesZAndNOnly : Prop :=
  DecodesAs 0x750 0x750 (fun w => .ands (rd w) (rn w) (rm w)) ∧
  ∀ (d n m : Reg) (s : State), ∃ t f, exec (.ands d n m) s = .next t ∧
    RegisterResult s t d (readReg s n &&& readReg s m) f [] ∧ ZNFlags f (readReg s n &&& readReg s m) ∧
    f.c = s.next.flags.c ∧ f.v = s.next.flags.v

/-- EOR, ORR and MUL (R181, R182, R183): the result to Rd, no flag. The product is that of the unsigned values modulo
2^64; that it is that of the signed values too is an inference the spec marks as its own ("[derived: from rule R144 of
41_arith.md]", in R183). -/
def Obligations.EorOrrMulWriteRdAndNoFlag : Prop :=
  DecodesAs 0x650 0x650 (fun w => .eor (rd w) (rn w) (rm w)) ∧
  DecodesAs 0x550 0x550 (fun w => .orr (rd w) (rn w) (rm w)) ∧
  DecodesAs 0x4D8 0x4D8 (fun w => .mul (rd w) (rn w) (rm w)) ∧
  ∀ (d n m : Reg) (s : State),
    (∃ t, exec (.eor d n m) s = .next t ∧ RegisterResult s t d (readReg s n ^^^ readReg s m) s.next.flags []) ∧
    (∃ t, exec (.orr d n m) s = .next t ∧ RegisterResult s t d (readReg s n ||| readReg s m) s.next.flags []) ∧
    (∃ t, exec (.mul d n m) s = .next t ∧
      RegisterResult s t d (BitVec.ofNat 64 ((readReg s n).toNat * (readReg s m).toNat)) s.next.flags [] ∧
      RegisterResult s t d (BitVec.ofInt 64 ((readReg s n).toInt * (readReg s m).toInt)) s.next.flags [])

/-- LSL and LSR under both readings of the shift class (R186 to R189, D11): the shifted value to Rd, Z and N from it, C
and V kept; which of the two a word is, and the amount, are those of the reading. -/
def Obligations.ShiftsUnderBothReadings : Prop :=
  (∀ w : Word32, 0x69A#11 ≤ w.extractLsb' 21 11 → w.extractLsb' 21 11 ≤ 0x69B#11 →
    decode .a64 w = .ok (if w.extractLsb' 10 6 = 63#6
      then .lsr (rd w) (rn w) (w.extractLsb' 16 6) (w.extractLsb' 10 6)
      else .lsl (rd w) (rn w) (w.extractLsb' 16 6) (w.extractLsb' 10 6)) ∧
    decode .literal w = .ok (if w.extractLsb' 21 11 = 0x69B#11
      then .lsl (rd w) (rn w) (w.extractLsb' 16 6) (w.extractLsb' 10 6)
      else .lsr (rd w) (rn w) (w.extractLsb' 16 6) (w.extractLsb' 10 6))) ∧
  (∀ (d n : Reg) (immr imms : BitVec 6) (s : State),
    let a := if s.config.shiftReading = .a64 then 63 - imms.toNat else 63 - immr.toNat
    let r := BitVec.ofNat 64 ((readReg s n).toNat * 2 ^ a)
    ∃ t f, exec (.lsl d n immr imms) s = .next t ∧ RegisterResult s t d r f [] ∧ ZNFlags f r ∧
      f.c = s.next.flags.c ∧ f.v = s.next.flags.v) ∧
  (∀ (d n : Reg) (immr imms : BitVec 6) (s : State),
    let a := if s.config.shiftReading = .a64 then immr.toNat else imms.toNat
    let r := BitVec.ofNat 64 ((readReg s n).toNat / 2 ^ a)
    ∃ t f, exec (.lsr d n immr imms) s = .next t ∧ RegisterResult s t d r f [] ∧ ZNFlags f r ∧
      f.c = s.next.flags.c ∧ f.v = s.next.flags.v)

/-- Under `SHIFT_READING = A64`, the word an assembler writes for `LSL Xd, Xn, #k` or `LSR Xd, Xn, #k` (R106) shifts by k,
for every k from 0 to 63 (R186, an inference the spec marks [derived]; D11). -/
def Obligations.AssemblerShiftWordsShiftByTheirAmount : Prop :=
  ∀ (d n : Reg) (k : Nat) (s : State), k < 64 → d ≠ xzr → s.config.shiftReading = .a64 →
    (∃ i t, decode .a64 (encode (.lsl d n (BitVec.ofNat 6 ((64 - k) % 64)) (BitVec.ofNat 6 (63 - k)))) = .ok i ∧
      exec i s = .next t ∧ t.next.entry d = readReg s n <<< k) ∧
    (∃ i t, decode .a64 (encode (.lsr d n (BitVec.ofNat 6 k) 63)) = .ok i ∧
      exec i s = .next t ∧ t.next.entry d = readReg s n >>> k)

/-! ## Control transfer and move (43_branch.md, 44_move.md) -/

/-- B and BR (R210, R213, R214): `next.pc` is the pc plus the signed word offset, or the register unchanged; nothing else
changes and neither faults. -/
def Obligations.BranchesWriteOnlyThePc : Prop :=
  DecodesAs 0x0A0 0x0BF (fun w => .b (w.extractLsb' 0 26)) ∧ DecodesAs 0x6B0 0x6B0 (fun w => .br (rn w)) ∧
  (∀ (imm : BitVec 26) (s : State), ∃ t, exec (.b imm) s = .next t ∧ PcResult s t (s.current.pc + scaled imm) []) ∧
  (∀ (n : Reg) (s : State), ∃ t, exec (.br n) s = .next t ∧ PcResult s t (readReg s n) [])

/-- B.cond (R215, R216, R217): taken exactly when the condition holds of the *current* Z and N; an unrecognised code gives
`UNKNOWN_COND` and pc + 4; nothing else changes (D18). -/
def Obligations.ConditionalBranchTestsZAndN : Prop :=
  (∀ (r : ShiftReading) (w : Word32), w.extractLsb' 24 8 = 0x54#8 →
    decode r w = .ok (.bCond (imm19 w) (condOfCode (w.extractLsb' 0 4)))) ∧
  (condOfCode 0b0000 = .eq ∧ condOfCode 0b0001 = .ne ∧ condOfCode 0b1010 = .ge ∧ condOfCode 0b1011 = .lt ∧
    condOfCode 0b1100 = .gt ∧ condOfCode 0b1101 = .le) ∧
  (∀ c : BitVec 4, c ∉ [0b0000#4, 0b0001#4, 0b1010#4, 0b1011#4, 0b1100#4, 0b1101#4] →
    condOfCode c = .unrecognised c) ∧
  ∀ (imm : BitVec 19) (c : Cond) (s : State),
    ((∀ code, c ≠ .unrecognised code) → condTrue s.current.flags c →
      ∃ t, exec (.bCond imm c) s = .next t ∧ PcResult s t (s.current.pc + scaled imm) []) ∧
    ((∀ code, c ≠ .unrecognised code) → ¬ condTrue s.current.flags c →
      ∃ t, exec (.bCond imm c) s = .next t ∧ PcResult s t (s.current.pc + 4) []) ∧
    (∀ code, c = .unrecognised code →
      ∃ t, exec (.bCond imm c) s = .next t ∧ PcResult s t (s.current.pc + 4) [.diag .unknownCond])

/-- CBZ and CBNZ (R218, R219): all 64 bits of the register at the Rd field decide; nothing but the pc changes. Rd = 31
reads 0: CBZ always branches, CBNZ never. -/
def Obligations.CompareAndBranchTestsAllOfRd : Prop :=
  DecodesAs 0x5A0 0x5A7 (fun w => .cbz (rd w) (imm19 w)) ∧ DecodesAs 0x5A8 0x5AF (fun w => .cbnz (rd w) (imm19 w)) ∧
  ∀ (d : Reg) (imm : BitVec 19) (s : State),
    (∃ t, exec (.cbz d imm) s = .next t ∧
      PcResult s t (if (readReg s d).toNat = 0 then s.current.pc + scaled imm else s.current.pc + 4) []) ∧
    (∃ t, exec (.cbnz d imm) s = .next t ∧
      PcResult s t (if (readReg s d).toNat = 0 then s.current.pc + 4 else s.current.pc + scaled imm) [])

/-- MOVZ (R98, R240): the zero-extended 16-bit immediate to Rd whatever hw is, with a diagnostic when hw is not 0; no
flag. -/
def Obligations.MovzIgnoresHwButReportsIt : Prop :=
  DecodesAs 0x694 0x697 (fun w => .movz (rd w) (w.extractLsb' 5 16) (w.extractLsb' 21 2)) ∧
  ∀ (d : Reg) (imm : BitVec 16) (hw : BitVec 2) (s : State), ∃ t, exec (.movz d imm hw) s = .next t ∧
    RegisterResult s t d (BitVec.ofNat 64 imm.toNat) s.next.flags (if hw = 0 then [] else [.diag .movzHwNonzero])

/-! ## Memory, loads and stores (20_memory.md, 45_loadstore.md) -/

/-- Words are little-endian, with address sums modulo 2^64: a read is made of the four bytes, lowest address least
significant; a write puts the four bytes there, and no other byte changes (R62, R63, R64, R69). -/
def Obligations.WordAccessIsLittleEndian : Prop :=
  (∀ (m : Memory) (a : Word), (m.readWord a).toNat = (m.readByte a).toNat + 2 ^ 8 * (m.readByte (addr a 1)).toNat +
    2 ^ 16 * (m.readByte (addr a 2)).toNat + 2 ^ 24 * (m.readByte (addr a 3)).toNat) ∧
  (∀ (m : Memory) (a : Word) (w : Word32) (k : Nat), k < 4 →
    (m.writeWord a w).readByte (addr a k) = w.extractLsb' (8 * k) 8) ∧
  (∀ (m : Memory) (a b : Word) (w : Word32), 4 ≤ (b - a).toNat → (m.writeWord a w).readByte b = m.readByte b)

/-- The effective address is the base register plus the signed byte offset, modulo 2^64, with index 31 reading 0; that of a
narrow store is its low 32 bits under `NARROW_STORE_ADDR32`, which differs only above 2^32 (R270, R271, D7). -/
def Obligations.EffectiveAddresses : Prop :=
  ∀ (s : State) (n : Reg) (imm : BitVec 9),
    effectiveAddress s n imm = readReg s n + BitVec.ofInt 64 imm.toInt ∧
    effectiveAddress s xzr imm = BitVec.ofInt 64 imm.toInt ∧
    (s.config.narrowStoreAddr32 = false → narrowStoreAddress s n imm = effectiveAddress s n imm) ∧
    (s.config.narrowStoreAddr32 = true →
      (narrowStoreAddress s n imm).toNat = (effectiveAddress s n imm).toNat % 2 ^ 32) ∧
    ((effectiveAddress s n imm).toNat < 2 ^ 32 → narrowStoreAddress s n imm = effectiveAddress s n imm)

/-- STUR (R250): the eight bytes of `x[Rd]` at EA, the low word first, where the access is aligned (or `BYTEWISE`) and
mapped; nothing else changes but the pc. Otherwise it faults, misaligned before unmapped (D5, D23). -/
def Obligations.SturStoresEightBytes : Prop :=
  DecodesAs 0x7C0 0x7C0 (fun w => .stur (rd w) (rn w) (imm9 w)) ∧
  ∀ (d n : Reg) (imm : BitVec 9) (s : State),
    let a := effectiveAddress s n imm
    let aligned := AlignmentAllows s.config (a.toNat % 4 = 0)
    (¬ aligned → exec (.stur d n imm) s = .fault (.misalignedData s.current.pc a)) ∧
    (aligned → ¬ BytesMapped s.config a 8 → exec (.stur d n imm) s = .fault (.unmappedData s.current.pc a)) ∧
    (aligned → BytesMapped s.config a 8 → ∃ t, exec (.stur d n imm) s = .next t ∧
      StoreResult s t a 8
        [.store a ((readReg s d).extractLsb' 0 32), .store (a + 4) ((readReg s d).extractLsb' 32 32)] ∧
      ∀ k, k < 8 → t.mem.readByte (addr a k) = byteAt (readReg s d) k)

/-- STURB (R251): the low byte of `x[Rd]`, by a read-modify-write of the containing word; every other byte of memory, the
other three of that word among them, is as before. It faults where the containing word is not mapped (D7). -/
def Obligations.SturbStoresOneByte : Prop :=
  DecodesAs 0x1C0 0x1C0 (fun w => .sturb (rd w) (rn w) (imm9 w)) ∧
  ∀ (d n : Reg) (imm : BitVec 9) (s : State),
    let a := narrowStoreAddress s n imm
    let wa := wordAddress a
    (¬ BytesMapped s.config wa 4 → exec (.sturb d n imm) s = .fault (.unmappedData s.current.pc a)) ∧
    (BytesMapped s.config wa 4 → ∃ t, exec (.sturb d n imm) s = .next t ∧
      StoreResult s t a 1 [.load wa (s.mem.readWord wa), .store wa (t.mem.readWord wa)] ∧
      t.mem.readByte a = byteAt (readReg s d) 0)

/-- STURH (R252): the low two bytes of `x[Rd]`, in one containing word, or at lane 3 under `BYTEWISE` in the two words
that hold them; every other byte is as before. At lane 3 under `FAULT`, and where a word is not mapped, it faults
(D5, D7). -/
def Obligations.SturhStoresTwoBytes : Prop :=
  DecodesAs 0x3C0 0x3C0 (fun w => .sturh (rd w) (rn w) (imm9 w)) ∧
  ∀ (d n : Reg) (imm : BitVec 9) (s : State),
    let a := narrowStoreAddress s n imm
    let wa := wordAddress a
    let crosses := a.toNat % 4 = 3
    let mapped := BytesMapped s.config wa (if crosses then 8 else 4)
    (¬ AlignmentAllows s.config (¬ crosses) → exec (.sturh d n imm) s = .fault (.misalignedData s.current.pc a)) ∧
    (AlignmentAllows s.config (¬ crosses) → ¬ mapped →
      exec (.sturh d n imm) s = .fault (.unmappedData s.current.pc a)) ∧
    (AlignmentAllows s.config (¬ crosses) → mapped → ∃ t, exec (.sturh d n imm) s = .next t ∧
      StoreResult s t a 2 (if crosses
        then [.load wa (s.mem.readWord wa), .load (wa + 4) (s.mem.readWord (wa + 4)),
              .store wa (t.mem.readWord wa), .store (wa + 4) (t.mem.readWord (wa + 4))]
        else [.load wa (s.mem.readWord wa), .store wa (t.mem.readWord wa)]) ∧
      t.mem.readByte a = byteAt (readReg s d) 0 ∧ t.mem.readByte (addr a 1) = byteAt (readReg s d) 1)

/-- LDUR (R260): the eight bytes at EA, little-endian, to Rd (discarded when Rd = 31), where the access is aligned (or
`BYTEWISE`) and mapped; no flag, no memory, and the base register is not written. Otherwise it faults, misaligned before
unmapped (D5). -/
def Obligations.LdurLoadsEightBytes : Prop :=
  DecodesAs 0x7C2 0x7C2 (fun w => .ldur (rd w) (rn w) (imm9 w)) ∧
  ∀ (d n : Reg) (imm : BitVec 9) (s : State),
    let a := effectiveAddress s n imm
    let aligned := AlignmentAllows s.config (a.toNat % 4 = 0)
    (¬ aligned → exec (.ldur d n imm) s = .fault (.misalignedData s.current.pc a)) ∧
    (aligned → ¬ BytesMapped s.config a 8 → exec (.ldur d n imm) s = .fault (.unmappedData s.current.pc a)) ∧
    (aligned → BytesMapped s.config a 8 → ∃ t v, exec (.ldur d n imm) s = .next t ∧
      RegisterResult s t d v s.next.flags
        [.load a (s.mem.readWord a), .load (a + 4) (s.mem.readWord (a + 4))] ∧
      ∀ k, k < 8 → byteAt v k = s.mem.readByte (addr a k))

/-- LDURB (R261): the byte at EA, zero-extended to 64 bits, to Rd, where its containing word is mapped; otherwise it
faults (D24). -/
def Obligations.LdurbLoadsOneByteZeroExtended : Prop :=
  DecodesAs 0x1C2 0x1C2 (fun w => .ldurb (rd w) (rn w) (imm9 w)) ∧
  ∀ (d n : Reg) (imm : BitVec 9) (s : State),
    let a := effectiveAddress s n imm
    let wa := wordAddress a
    (¬ BytesMapped s.config wa 4 → exec (.ldurb d n imm) s = .fault (.unmappedData s.current.pc a)) ∧
    (BytesMapped s.config wa 4 → ∃ t, exec (.ldurb d n imm) s = .next t ∧
      RegisterResult s t d (BitVec.ofNat 64 (s.mem.readByte a).toNat) s.next.flags [.load wa (s.mem.readWord wa)])

/-- LDURH (R262): the two bytes at EA, little-endian and zero-extended, to Rd, from one containing word, or at lane 3
under `BYTEWISE` from the two words that hold them. At lane 3 under `FAULT`, and where a word is not mapped, it faults
(D5, D24). -/
def Obligations.LdurhLoadsTwoBytesZeroExtended : Prop :=
  DecodesAs 0x3C2 0x3C2 (fun w => .ldurh (rd w) (rn w) (imm9 w)) ∧
  ∀ (d n : Reg) (imm : BitVec 9) (s : State),
    let a := effectiveAddress s n imm
    let wa := wordAddress a
    let crosses := a.toNat % 4 = 3
    let mapped := BytesMapped s.config wa (if crosses then 8 else 4)
    (¬ AlignmentAllows s.config (¬ crosses) → exec (.ldurh d n imm) s = .fault (.misalignedData s.current.pc a)) ∧
    (AlignmentAllows s.config (¬ crosses) → ¬ mapped →
      exec (.ldurh d n imm) s = .fault (.unmappedData s.current.pc a)) ∧
    (AlignmentAllows s.config (¬ crosses) → mapped → ∃ t, exec (.ldurh d n imm) s = .next t ∧
      RegisterResult s t d
        (BitVec.ofNat 64 ((s.mem.readByte a).toNat + 2 ^ 8 * (s.mem.readByte (addr a 1)).toNat)) s.next.flags
        (if crosses then [.load wa (s.mem.readWord wa), .load (wa + 4) (s.mem.readWord (wa + 4))]
          else [.load wa (s.mem.readWord wa)]))

/-- A byte stored by STURB and loaded back by LDURB in the next step is the byte, zero-extended, and every other byte of
memory is as before (R263). Under `NARROW_STORE_ADDR32` only where the address is below 2^32. -/
def Obligations.ByteStoreThenLoadRoundTrip : Prop :=
  ∀ (d d' n : Reg) (imm : BitVec 9) (s t : State), s.next = s.current → d' ≠ xzr →
    (s.config.narrowStoreAddr32 = false ∨ (effectiveAddress s n imm).toNat < 2 ^ 32) →
    exec (.sturb d n imm) s = .next t →
    (∃ u, exec (.ldurb d' n imm) (stage (commit t)) = .next u ∧
      u.next.entry d' = BitVec.ofNat 64 ((readReg s d).toNat % 2 ^ 8)) ∧
    ∀ b : Word, b ≠ effectiveAddress s n imm → t.mem.readByte b = s.mem.readByte b

/-- The same for STUR and LDUR, whose word order is the spec's decision D23, and for STURH and LDURH. -/
def Obligations.WideStoreThenLoadRoundTrip : Prop :=
  (∀ (d d' n : Reg) (imm : BitVec 9) (s t : State), s.next = s.current → d' ≠ xzr →
    exec (.stur d n imm) s = .next t →
    ∃ u, exec (.ldur d' n imm) (stage (commit t)) = .next u ∧ u.next.entry d' = readReg s d) ∧
  (∀ (d d' n : Reg) (imm : BitVec 9) (s t : State), s.next = s.current → d' ≠ xzr →
    (s.config.narrowStoreAddr32 = false ∨ (effectiveAddress s n imm).toNat < 2 ^ 32) →
    exec (.sturh d n imm) s = .next t →
    ∃ u, exec (.ldurh d' n imm) (stage (commit t)) = .next u ∧
      u.next.entry d' = BitVec.ofNat 64 ((readReg s d).toNat % 2 ^ 16))

/-- A store is seen by the fetch of a later step: after STUR, a fetch at EA or EA + 4 that can be made returns the word
stored there (R80, D8, an inference the spec marks [derived]). -/
def Obligations.StoreIsSeenByLaterFetch : Prop :=
  ∀ (d n : Reg) (imm : BitVec 9) (s t u : State), exec (.stur d n imm) s = .next t → u.mem = t.mem →
    fetchFault u = none →
    (u.current.pc = effectiveAddress s n imm → fetchWord u = .ok ((readReg s d).extractLsb' 0 32)) ∧
    (u.current.pc = effectiveAddress s n imm + 4 → fetchWord u = .ok ((readReg s d).extractLsb' 32 32))

/-- A word the loader places at the pc is what the next step runs (R333): the instruction it decodes to. -/
def Obligations.PlacedWordRunsNext : Prop :=
  ∀ (s : State) (w : Word32) (i : Instr), s.runBit = true → AlignmentAllows s.config (s.current.pc.toNat % 4 = 0) →
    BytesMapped s.config s.current.pc 4 → decode s.config.shiftReading w = .ok i →
    step (s.withFetchWord 32 w.toNat) = commitOutcome (exec i (afterFetch w (s.withFetchWord 32 w.toNat)))

/-! ## Faults (60_exceptions.md, 20_memory.md) -/

/-- The fetch checks alignment first, then mapping, and returns the little-endian word where both pass; a failed check is
the step's fault (R66, R67, R68, R303). -/
def Obligations.FetchChecksAlignmentThenMapping : Prop :=
  ∀ s : State, s.runBit = true →
    (¬ AlignmentAllows s.config (s.current.pc.toNat % 4 = 0) → step s = .fault (.misalignedFetch s.current.pc)) ∧
    (AlignmentAllows s.config (s.current.pc.toNat % 4 = 0) → ¬ BytesMapped s.config s.current.pc 4 →
      step s = .fault (.unmappedFetch s.current.pc)) ∧
    (AlignmentAllows s.config (s.current.pc.toNat % 4 = 0) → BytesMapped s.config s.current.pc 4 →
      fetchWord s = .ok (s.mem.readWord s.current.pc))

/-- No handler but the six loads and stores faults, and theirs are codes 3 and 4 with the pc and the address of the
access; no instruction is refused in any state (R303, R310). -/
def Obligations.OnlyLoadsAndStoresFault : Prop :=
  (∀ (i : Instr) (s : State) (f : Fault), exec i s = .fault f →
    (f.code = 3 ∨ f.code = 4) ∧ f.recordedPc = s.current.pc ∧
    ∃ a n, dataAccess s i = some (a, n) ∧ f.recordedAddress = some a) ∧
  (∀ (i : Instr) (s : State) (r : Refusal), exec i s ≠ .refused r)

/-- In a memory that is total over the 64-bit space and takes misaligned accesses byte by byte, every step of a run goes
on until HLT: nothing faults and nothing is refused (R61, R65, R67; D5, D6). -/
def Obligations.LenientMemoryNeverFaults : Prop :=
  ∀ s : State, LenientMemory s.config → s.runBit = true → StepSafe s ∧ ∃ t, step s = .next t ∧ LenientMemory t.config
end

