-- ==== Sys2Proof/Laws/State.lean ====
section
/-! SUPPORT. The small lemmas of every state update: one per field, so that no later proof unfolds a record update. -/

namespace Sys2Proof.Machine

variable (s : State)

/-! ### writeReg -/

@[simp] theorem writeReg_config (i : Reg) (v : Word) : (writeReg i v s).config = s.config := by
  unfold writeReg; split <;> rfl
@[simp] theorem writeReg_current (i : Reg) (v : Word) : (writeReg i v s).current = s.current := by
  unfold writeReg; split <;> rfl
@[simp] theorem writeReg_next_pc (i : Reg) (v : Word) : (writeReg i v s).next.pc = s.next.pc := by
  unfold writeReg; split <;> rfl
@[simp] theorem writeReg_next_flags (i : Reg) (v : Word) : (writeReg i v s).next.flags = s.next.flags := by
  unfold writeReg; split <;> rfl
@[simp] theorem writeReg_runBit (i : Reg) (v : Word) : (writeReg i v s).runBit = s.runBit := by
  unfold writeReg; split <;> rfl
@[simp] theorem writeReg_mem (i : Reg) (v : Word) : (writeReg i v s).mem = s.mem := by
  unfold writeReg; split <;> rfl
@[simp] theorem writeReg_trace (i : Reg) (v : Word) : (writeReg i v s).trace = s.trace := by
  unfold writeReg; split <;> rfl

/-! ### writePc -/

@[simp] theorem writePc_config (t : Word) : (writePc t s).config = s.config := rfl
@[simp] theorem writePc_current (t : Word) : (writePc t s).current = s.current := rfl
@[simp] theorem writePc_next_registers (t : Word) : (writePc t s).next.registers = s.next.registers := rfl
@[simp] theorem writePc_next_pc (t : Word) : (writePc t s).next.pc = t := rfl
@[simp] theorem writePc_next_flags (t : Word) : (writePc t s).next.flags = s.next.flags := rfl
@[simp] theorem writePc_runBit (t : Word) : (writePc t s).runBit = s.runBit := rfl
@[simp] theorem writePc_mem (t : Word) : (writePc t s).mem = s.mem := rfl
@[simp] theorem writePc_trace (t : Word) : (writePc t s).trace = s.trace := rfl

/-! ### writeFlags -/

@[simp] theorem writeFlags_config (f : Flags) : (writeFlags f s).config = s.config := rfl
@[simp] theorem writeFlags_current (f : Flags) : (writeFlags f s).current = s.current := rfl
@[simp] theorem writeFlags_next_registers (f : Flags) : (writeFlags f s).next.registers = s.next.registers := rfl
@[simp] theorem writeFlags_next_pc (f : Flags) : (writeFlags f s).next.pc = s.next.pc := rfl
@[simp] theorem writeFlags_next_flags (f : Flags) : (writeFlags f s).next.flags = f := rfl
@[simp] theorem writeFlags_runBit (f : Flags) : (writeFlags f s).runBit = s.runBit := rfl
@[simp] theorem writeFlags_mem (f : Flags) : (writeFlags f s).mem = s.mem := rfl
@[simp] theorem writeFlags_trace (f : Flags) : (writeFlags f s).trace = s.trace := rfl

/-! ### advancePc -/

@[simp] theorem advancePc_config : (advancePc s).config = s.config := rfl
@[simp] theorem advancePc_current : (advancePc s).current = s.current := rfl
@[simp] theorem advancePc_next_registers : (advancePc s).next.registers = s.next.registers := rfl
@[simp] theorem advancePc_next_pc : (advancePc s).next.pc = s.current.pc + 4 := rfl
@[simp] theorem advancePc_next_flags : (advancePc s).next.flags = s.next.flags := rfl
@[simp] theorem advancePc_runBit : (advancePc s).runBit = s.runBit := rfl
@[simp] theorem advancePc_mem : (advancePc s).mem = s.mem := rfl
@[simp] theorem advancePc_trace : (advancePc s).trace = s.trace := rfl

/-! ### emit -/

@[simp] theorem emit_config (e : PortEvent) : (emit e s).config = s.config := rfl
@[simp] theorem emit_current (e : PortEvent) : (emit e s).current = s.current := rfl
@[simp] theorem emit_next_registers (e : PortEvent) : (emit e s).next.registers = s.next.registers := rfl
@[simp] theorem emit_next_pc (e : PortEvent) : (emit e s).next.pc = s.next.pc := rfl
@[simp] theorem emit_next_flags (e : PortEvent) : (emit e s).next.flags = s.next.flags := rfl
@[simp] theorem emit_runBit (e : PortEvent) : (emit e s).runBit = s.runBit := rfl
@[simp] theorem emit_mem (e : PortEvent) : (emit e s).mem = s.mem := rfl
@[simp] theorem emit_trace (e : PortEvent) : (emit e s).trace = s.trace ++ [e] := rfl

/-! ### emitDiag -/

@[simp] theorem emitDiag_config (k : Diagnostic) : (emitDiag k s).config = s.config := rfl
@[simp] theorem emitDiag_current (k : Diagnostic) : (emitDiag k s).current = s.current := rfl
@[simp] theorem emitDiag_next_registers (k : Diagnostic) : (emitDiag k s).next.registers = s.next.registers := rfl
@[simp] theorem emitDiag_next_pc (k : Diagnostic) : (emitDiag k s).next.pc = s.next.pc := rfl
@[simp] theorem emitDiag_next_flags (k : Diagnostic) : (emitDiag k s).next.flags = s.next.flags := rfl
@[simp] theorem emitDiag_runBit (k : Diagnostic) : (emitDiag k s).runBit = s.runBit := rfl
@[simp] theorem emitDiag_mem (k : Diagnostic) : (emitDiag k s).mem = s.mem := rfl
@[simp] theorem emitDiag_trace (k : Diagnostic) : (emitDiag k s).trace = s.trace ++ [.diag k] := rfl

/-! ### clearRunBit -/

@[simp] theorem clearRunBit_config : (clearRunBit s).config = s.config := rfl
@[simp] theorem clearRunBit_current : (clearRunBit s).current = s.current := rfl
@[simp] theorem clearRunBit_next_registers : (clearRunBit s).next.registers = s.next.registers := rfl
@[simp] theorem clearRunBit_next_pc : (clearRunBit s).next.pc = s.next.pc := rfl
@[simp] theorem clearRunBit_next_flags : (clearRunBit s).next.flags = s.next.flags := rfl
@[simp] theorem clearRunBit_runBit : (clearRunBit s).runBit = false := rfl
@[simp] theorem clearRunBit_mem : (clearRunBit s).mem = s.mem := rfl
@[simp] theorem clearRunBit_trace : (clearRunBit s).trace = s.trace := rfl

/-! ### loadWord_state -/

@[simp] theorem loadWord_state_config (a : Word) : (loadWord a s).2.config = s.config := rfl
@[simp] theorem loadWord_state_current (a : Word) : (loadWord a s).2.current = s.current := rfl
@[simp] theorem loadWord_state_next_registers (a : Word) : (loadWord a s).2.next.registers = s.next.registers := rfl
@[simp] theorem loadWord_state_next_pc (a : Word) : (loadWord a s).2.next.pc = s.next.pc := rfl
@[simp] theorem loadWord_state_next_flags (a : Word) : (loadWord a s).2.next.flags = s.next.flags := rfl
@[simp] theorem loadWord_state_runBit (a : Word) : (loadWord a s).2.runBit = s.runBit := rfl
@[simp] theorem loadWord_state_mem (a : Word) : (loadWord a s).2.mem = s.mem := rfl
@[simp] theorem loadWord_state_trace (a : Word) : (loadWord a s).2.trace = s.trace ++ [.load a (s.mem.readWord a)] := rfl

/-! ### storeWord -/

@[simp] theorem storeWord_config (a : Word) (w : Word32) : (storeWord a w s).config = s.config := rfl
@[simp] theorem storeWord_current (a : Word) (w : Word32) : (storeWord a w s).current = s.current := rfl
@[simp] theorem storeWord_next_registers (a : Word) (w : Word32) : (storeWord a w s).next.registers = s.next.registers := rfl
@[simp] theorem storeWord_next_pc (a : Word) (w : Word32) : (storeWord a w s).next.pc = s.next.pc := rfl
@[simp] theorem storeWord_next_flags (a : Word) (w : Word32) : (storeWord a w s).next.flags = s.next.flags := rfl
@[simp] theorem storeWord_runBit (a : Word) (w : Word32) : (storeWord a w s).runBit = s.runBit := rfl
@[simp] theorem storeWord_mem (a : Word) (w : Word32) : (storeWord a w s).mem = s.mem.writeWord a w := rfl
@[simp] theorem storeWord_trace (a : Word) (w : Word32) : (storeWord a w s).trace = s.trace ++ [.store a w] := rfl

/-! ### stage -/

@[simp] theorem stage_config : (stage s).config = s.config := rfl
@[simp] theorem stage_current : (stage s).current = s.current := rfl
@[simp] theorem stage_next_registers : (stage s).next.registers = s.current.registers := rfl
@[simp] theorem stage_next_pc : (stage s).next.pc = s.current.pc := rfl
@[simp] theorem stage_next_flags : (stage s).next.flags = s.current.flags := rfl
@[simp] theorem stage_runBit : (stage s).runBit = s.runBit := rfl
@[simp] theorem stage_mem : (stage s).mem = s.mem := rfl
@[simp] theorem stage_trace : (stage s).trace = s.trace := rfl

/-! ### afterFetch -/

@[simp] theorem afterFetch_config (w : Word32) : (afterFetch w s).config = s.config := rfl
@[simp] theorem afterFetch_current (w : Word32) : (afterFetch w s).current = s.current := rfl
@[simp] theorem afterFetch_next_registers (w : Word32) : (afterFetch w s).next.registers = s.current.registers := rfl
@[simp] theorem afterFetch_next_pc (w : Word32) : (afterFetch w s).next.pc = s.current.pc := rfl
@[simp] theorem afterFetch_next_flags (w : Word32) : (afterFetch w s).next.flags = s.current.flags := rfl
@[simp] theorem afterFetch_runBit (w : Word32) : (afterFetch w s).runBit = s.runBit := rfl
@[simp] theorem afterFetch_mem (w : Word32) : (afterFetch w s).mem = s.mem := rfl
@[simp] theorem afterFetch_trace (w : Word32) : (afterFetch w s).trace = s.trace ++ [.fetch s.current.pc w] := rfl

/-! ### commit -/

@[simp] theorem commit_config : (commit s).config = s.config := rfl
@[simp] theorem commit_current : (commit s).current = s.next := rfl
@[simp] theorem commit_next_registers : (commit s).next.registers = s.next.registers := rfl
@[simp] theorem commit_next_pc : (commit s).next.pc = s.next.pc := rfl
@[simp] theorem commit_next_flags : (commit s).next.flags = s.next.flags := rfl
@[simp] theorem commit_runBit : (commit s).runBit = s.runBit := rfl
@[simp] theorem commit_mem : (commit s).mem = s.mem := rfl
@[simp] theorem commit_trace : (commit s).trace = s.trace := rfl

/-! ### Stored entries of *next* -/

@[simp] theorem writePc_next_entry (t : Word) (j : Reg) : (writePc t s).next.entry j = s.next.entry j := rfl
@[simp] theorem writeFlags_next_entry (f : Flags) (j : Reg) : (writeFlags f s).next.entry j = s.next.entry j := rfl
@[simp] theorem advancePc_next_entry (j : Reg) : (advancePc s).next.entry j = s.next.entry j := rfl
@[simp] theorem emit_next_entry (e : PortEvent) (j : Reg) : (emit e s).next.entry j = s.next.entry j := rfl
@[simp] theorem emitDiag_next_entry (k : Diagnostic) (j : Reg) : (emitDiag k s).next.entry j = s.next.entry j := rfl
@[simp] theorem clearRunBit_next_entry (j : Reg) : (clearRunBit s).next.entry j = s.next.entry j := rfl
@[simp] theorem storeWord_next_entry (a : Word) (w : Word32) (j : Reg) : (storeWord a w s).next.entry j = s.next.entry j := rfl
@[simp] theorem stage_next_entry (j : Reg) : (stage s).next.entry j = s.current.entry j := rfl
@[simp] theorem afterFetch_next_entry (w : Word32) (j : Reg) : (afterFetch w s).next.entry j = s.current.entry j := rfl
@[simp] theorem commit_next_entry (j : Reg) : (commit s).next.entry j = s.next.entry j := rfl

/-! ### Registers (R31, R32) -/

/-- The *next* entries after a register write: the written one, unless it is entry 31. -/
theorem writeReg_next_entry (i : Reg) (v : Word) (s : State) (j : Reg) :
    (writeReg i v s).next.entry j = if i ≠ xzr ∧ j = i then v else s.next.entry j := by
  unfold writeReg ArchState.entry
  by_cases hi : i = xzr
  · simp [hi]
  · by_cases hj : j = i
    · subst hj; simp [hi]
    · have : (i : Nat) ≠ (j : Nat) := fun h => hj (Fin.ext h.symm)
      simp [hi, hj, this]

@[simp] theorem writeReg_xzr (v : Word) (s : State) : writeReg xzr v s = s := by simp [writeReg]

theorem writeReg_self (i : Reg) (v : Word) (s : State) (h : i ≠ xzr) : (writeReg i v s).next.entry i = v := by
  simp [writeReg_next_entry, h]

theorem writeReg_other (i j : Reg) (v : Word) (s : State) (h : j ≠ i) :
    (writeReg i v s).next.entry j = s.next.entry j := by simp [writeReg_next_entry, h]

@[simp] theorem readReg_xzr (s : State) : readReg s xzr = 0 := by simp [readReg]

theorem readReg_of_ne (s : State) (i : Reg) (h : i ≠ xzr) : readReg s i = s.current.entry i := by
  simp [readReg, h]

/-- A register read depends on *current* alone (R31). -/
theorem readReg_congr (s t : State) (i : Reg) (h : t.current = s.current) : readReg t i = readReg s i := by
  simp [readReg, h]

@[simp] theorem readReg_stage (s : State) (i : Reg) : readReg (stage s) i = readReg s i := rfl
@[simp] theorem readReg_afterFetch (w : Word32) (s : State) (i : Reg) : readReg (afterFetch w s) i = readReg s i := rfl
@[simp] theorem readReg_emit (e : PortEvent) (s : State) (i : Reg) : readReg (emit e s) i = readReg s i := rfl

@[simp] theorem loadWord_value (a : Word) : (loadWord a s).1 = s.mem.readWord a := rfl

/-! ### Reset (R330) -/

@[simp] theorem resetWith_config (c : Config) (b : Boot) : (State.resetWith c b).config = c := rfl
@[simp] theorem resetWith_pc (c : Config) (b : Boot) : (State.resetWith c b).current.pc = b.resetPc := rfl
@[simp] theorem resetWith_flags (c : Config) (b : Boot) :
    (State.resetWith c b).current.flags = ⟨false, false, false, false⟩ := rfl
@[simp] theorem resetWith_runBit (c : Config) (b : Boot) : (State.resetWith c b).runBit = true := rfl
@[simp] theorem resetWith_next (c : Config) (b : Boot) :
    (State.resetWith c b).next = (State.resetWith c b).current := rfl
@[simp] theorem resetWith_mem (c : Config) (b : Boot) : (State.resetWith c b).mem = ⟨b.initMem⟩ := rfl
@[simp] theorem resetWith_trace (c : Config) (b : Boot) : (State.resetWith c b).trace = [] := rfl

end Sys2Proof.Machine
end

