-- ==== Sys2Proof/Laws/Lanes.lean ====
section
/-! SUPPORT. Bytes and lanes of a word (20_memory.md R62, R70, R71). -/

namespace Sys2Proof.Machine

/-- Every bit of `insert(word, l, n, v)` (R71). -/
theorem getLsbD_insertLane {n : Nat} (word : Word32) (l : Nat) (v : BitVec n) (i : Nat) (hfit : 8 * l + n ≤ 32) (hi : i < 32) :
    (insertLane word l v).getLsbD i = if 8 * l ≤ i ∧ i < 8 * l + n then v.getLsbD (i - 8 * l) else word.getLsbD i := by
  have hn : (BitVec.allOnes n).getLsbD (i - 8 * l) = decide (i - 8 * l < n) := by simp
  unfold insertLane
  simp only [BitVec.getLsbD_or, BitVec.getLsbD_and, BitVec.getLsbD_not, BitVec.getLsbD_shiftLeft, BitVec.getLsbD_setWidth, hn, hi]
  by_cases h1 : 8 * l ≤ i
  · by_cases h2 : i < 8 * l + n
    · have : i - 8 * l < n := by omega
      have : i - 8 * l < 32 := by omega
      have : ¬ i < 8 * l := by omega
      simp [*]
    · have : ¬ i - 8 * l < n := by omega
      have h3 : v.getLsbD (i - 8 * l) = false := BitVec.getLsbD_of_ge _ _ (by omega)
      simp [h1, h2, h3, this]
  · have : i < 8 * l := by omega
    simp [h1, this]

/-- A byte inserted at a lane replaces that byte and no other (R71, R251). -/
theorem byteOfWord_insertLane_byte (word : Word32) (l k : Nat) (v : Byte) (hl : l < 4) (hk : k < 4) :
    byteOfWord (insertLane word l v) k = if k = l then v else byteOfWord word k := by
  apply BitVec.eq_of_getLsbD_eq; intro i hi
  have := getLsbD_insertLane word l v (8 * k + i) (by omega) (by omega)
  simp only [byteOfWord, BitVec.getLsbD_extractLsb', hi, this, decide_true, Bool.true_and]
  by_cases h : k = l
  · subst h; simp [hi]
  · simp only [h, if_false, BitVec.getLsbD_extractLsb', hi, decide_true, Bool.true_and]
    rw [if_neg (by omega)]

/-- A halfword inserted at a lane up to 2 replaces its two bytes and no other (R71, R252). -/
theorem byteOfWord_insertLane_half (word : Word32) (l k : Nat) (v : BitVec 16) (hl : l < 3) (hk : k < 4) :
    byteOfWord (insertLane word l v) k =
      if k = l then v.extractLsb' 0 8 else if k = l + 1 then v.extractLsb' 8 8 else byteOfWord word k := by
  apply BitVec.eq_of_getLsbD_eq; intro i hi
  have := getLsbD_insertLane word l v (8 * k + i) (by omega) (by omega)
  simp only [byteOfWord, BitVec.getLsbD_extractLsb', hi, this, decide_true, Bool.true_and]
  by_cases h : k = l
  · subst h; simp [hi]; omega
  · by_cases h' : k = l + 1
    · subst h'
      rw [if_pos (by omega), if_neg (by omega), if_pos rfl]
      simp only [BitVec.getLsbD_extractLsb', hi, decide_true, Bool.true_and]
      congr 1; omega
    · simp only [h, h', if_false, BitVec.getLsbD_extractLsb', hi, decide_true, Bool.true_and]
      rw [if_neg (by omega)]
theorem toNat_append_add {m n : Nat} (x : BitVec m) (y : BitVec n) : (x ++ y).toNat = x.toNat * 2 ^ n + y.toNat := by
  rw [BitVec.toNat_append, ← Nat.shiftLeft_add_eq_or_of_lt y.isLt, Nat.shiftLeft_eq]
theorem toNat_wordOfBytes (b0 b1 b2 b3 : Byte) :
    (wordOfBytes b0 b1 b2 b3).toNat = b3.toNat * 2 ^ 24 + b2.toNat * 2 ^ 16 + b1.toNat * 2 ^ 8 + b0.toNat := by
  unfold wordOfBytes
  simp only [toNat_append_add]
  omega
/-- The bytes of a little-endian word are the bytes it was made of (R62, R69). -/
theorem byteOfWord_wordOfBytes (b0 b1 b2 b3 : Byte) :
    byteOfWord (wordOfBytes b0 b1 b2 b3) 0 = b0 ∧ byteOfWord (wordOfBytes b0 b1 b2 b3) 1 = b1 ∧
    byteOfWord (wordOfBytes b0 b1 b2 b3) 2 = b2 ∧ byteOfWord (wordOfBytes b0 b1 b2 b3) 3 = b3 := by
  have h0 := b0.isLt; have h1 := b1.isLt; have h2 := b2.isLt; have h3 := b3.isLt
  refine ⟨?_, ?_, ?_, ?_⟩ <;> apply BitVec.eq_of_toNat_eq <;>
    simp only [byteOfWord, BitVec.extractLsb'_toNat, toNat_wordOfBytes, Nat.shiftRight_eq_div_pow] <;> omega
theorem wordOfBytes_byteOfWord (w : Word32) :
    wordOfBytes (byteOfWord w 0) (byteOfWord w 1) (byteOfWord w 2) (byteOfWord w 3) = w := by
  have h := w.isLt
  apply BitVec.eq_of_toNat_eq
  simp only [toNat_wordOfBytes, byteOfWord, BitVec.extractLsb'_toNat, Nat.shiftRight_eq_div_pow]
  omega

/-- `wa(a)` is `a` less its two low bits (R70). -/
theorem toNat_wordAddress (a : Word) : (wordAddress a).toNat = a.toNat / 4 * 4 := by
  unfold wordAddress
  have : a &&& ~~~3#64 = (a >>> 2) <<< 2 := by
    apply BitVec.eq_of_getLsbD_eq; intro i hi
    simp only [BitVec.getLsbD_and, BitVec.getLsbD_not, BitVec.getLsbD_shiftLeft, BitVec.getLsbD_ushiftRight, hi]
    by_cases h2 : i < 2
    · interval_cases i <;> simp
    · have : (3#64).getLsbD i = false := by
        simp only [BitVec.getLsbD_ofNat, hi]
        have : (3 : Nat) < 2 ^ i := lt_of_lt_of_le (by norm_num) (Nat.pow_le_pow_right (by norm_num) (by omega : 2 ≤ i))
        simp [Nat.testBit_lt_two_pow this]
      simp [this, h2, show 2 + (i - 2) = i by omega]
  rw [this]
  simp only [BitVec.toNat_shiftLeft, BitVec.toNat_ushiftRight, Nat.shiftLeft_eq, Nat.shiftRight_eq_div_pow]
  have := a.isLt
  omega
theorem lane_eq_mod (a : Word) : lane a = a.toNat % 4 := by
  simp [lane, BitVec.extractLsb'_toNat]
theorem lane_lt (a : Word) : lane a < 4 := by rw [lane_eq_mod]; omega
theorem wordAddress_add_lane (a : Word) : wordAddress a + BitVec.ofNat 64 (lane a) = a := by
  have := a.isLt
  apply BitVec.eq_of_toNat_eq
  rw [BitVec.toNat_add, toNat_wordAddress, lane_eq_mod, BitVec.toNat_ofNat]
  omega

end Sys2Proof.Machine
end

