-- ==== Sys2Proof/Laws/Memory.lean ====
section
/-! SUPPORT. The laws of memory (20_memory.md): what a read gives after a write, byte by byte and word by word, and that
every memory operation keeps the canonical form. -/

namespace Sys2Proof.Machine

/-! ## Lists of cells -/

theorem readCells_insertCell_other (cell : Host.Cell) (a : Nat) (cells : List Host.Cell) (h : cell.1 ≠ a) :
    readCells a (insertCell cell cells) = readCells a cells := by
  induction cells with
  | nil => simp [insertCell, readCells, h]
  | cons head rest ih =>
    unfold insertCell
    split
    · simp [readCells, h]
    · simp [readCells, ih]

theorem readCells_insertCell_self (cell : Host.Cell) (cells : List Host.Cell) (h : ∀ x ∈ cells, x.1 ≠ cell.1) :
    readCells cell.1 (insertCell cell cells) = cell.2 := by
  induction cells with
  | nil => simp [insertCell, readCells]
  | cons head rest ih =>
    unfold insertCell
    split
    · simp [readCells]
    · simp [readCells, h head (by simp), ih fun x hx => h x (by simp [hx])]

theorem readCells_eq_unlisted (a : Nat) (cells : List Host.Cell) (h : ∀ x ∈ cells, x.1 ≠ a) :
    readCells a cells = unlistedByte := by
  induction cells with
  | nil => rfl
  | cons head rest ih => simp [readCells, h head (by simp), ih fun x hx => h x (by simp [hx])]

theorem readCells_filter_other (a b : Nat) (cells : List Host.Cell) (h : b ≠ a) :
    readCells b (cells.filter fun cell => cell.1 != a) = readCells b cells := by
  induction cells with
  | nil => rfl
  | cons head rest ih =>
    by_cases hh : head.1 = a
    · simp [readCells, hh, ih, show a ≠ b from fun e => h e.symm]
    · simp [hh, readCells, ih]

theorem readCells_writeCells (a b : Nat) (v : Byte) (cells : List Host.Cell) :
    readCells b (writeCells a v cells) = if b = a then v else readCells b cells := by
  have hfree : ∀ x ∈ cells.filter (fun cell => cell.1 != a), x.1 ≠ a := by simp
  unfold writeCells
  by_cases hb : b = a
  · subst hb
    split
    · rename_i hv
      rw [readCells_eq_unlisted _ _ hfree]; simp [hv]
    · simpa using readCells_insertCell_self (b, v) _ hfree
  · split
    · simp [readCells_filter_other a b cells hb]
    · rw [readCells_insertCell_other (a, v) b _ fun e => hb e.symm]
      simp [readCells_filter_other a b cells hb]

theorem mem_insertCell (cell x : Host.Cell) (cells : List Host.Cell) :
    x ∈ insertCell cell cells ↔ x = cell ∨ x ∈ cells := by
  induction cells with
  | nil => simp [insertCell]
  | cons head rest ih =>
    unfold insertCell
    split
    · simp
    · simp only [List.mem_cons, ih]; tauto

theorem pairwise_insertCell (cell : Host.Cell) (cells : List Host.Cell)
    (hsorted : cells.Pairwise fun x y => x.1 < y.1) (hfree : ∀ x ∈ cells, x.1 ≠ cell.1) :
    (insertCell cell cells).Pairwise fun x y => x.1 < y.1 := by
  induction cells with
  | nil => simp [insertCell]
  | cons head rest ih =>
    obtain ⟨hhead, hrest⟩ := List.pairwise_cons.mp hsorted
    unfold insertCell
    split
    · rename_i hlt
      refine List.pairwise_cons.mpr ⟨fun y hy => ?_, hsorted⟩
      rcases List.mem_cons.mp hy with rfl | hy
      · exact hlt
      · exact Nat.lt_trans hlt (hhead y hy)
    · rename_i hge
      refine List.pairwise_cons.mpr ⟨fun y hy => ?_, ih hrest fun x hx => hfree x (by simp [hx])⟩
      rcases (mem_insertCell cell y rest).mp hy with rfl | hy
      · have := hfree head (by simp)
        omega
      · exact hhead y hy

/-! ## Bytes (R61) -/

/-- A byte read after a byte write gives the byte written, and any other byte as before. -/
theorem readByte_writeByte (m : Memory) (a b : Word) (v : Byte) :
    (m.writeByte a v).readByte b = if b = a then v else m.readByte b := by
  simp [Memory.readByte, Memory.writeByte, readCells_writeCells, BitVec.toNat_inj]

/-- The canonical form, spelled out. -/
theorem wf_iff (m : Memory) : m.wf = true ↔
    m.cells.Pairwise (fun x y => x.1 < y.1) ∧ ∀ x ∈ m.cells, x.1 < 2 ^ 64 ∧ x.2 ≠ unlistedByte := by
  simp only [Memory.wf, Bool.and_eq_true, decide_eq_true_eq, List.all_eq_true]

/-- A byte write keeps the canonical form. -/
theorem wf_writeByte (m : Memory) (a : Word) (v : Byte) (h : m.wf = true) : (m.writeByte a v).wf = true := by
  obtain ⟨hsorted, hbytes⟩ := (wf_iff m).mp h
  have hs : (m.cells.filter fun cell => cell.1 != a.toNat).Pairwise fun x y => x.1 < y.1 := hsorted.filter _
  have hfree : ∀ x ∈ m.cells.filter (fun cell => cell.1 != a.toNat), x.1 ≠ a.toNat := by simp
  have hb : ∀ x ∈ m.cells.filter (fun cell => cell.1 != a.toNat), x.1 < 2 ^ 64 ∧ x.2 ≠ unlistedByte :=
    fun x hx => hbytes x (List.mem_filter.mp hx).1
  rw [wf_iff]
  unfold Memory.writeByte writeCells
  dsimp only
  split
  · exact ⟨hs, hb⟩
  · rename_i hv
    refine ⟨pairwise_insertCell _ _ hs hfree, fun x hx => ?_⟩
    rcases (mem_insertCell _ _ _).mp hx with rfl | hx
    · exact ⟨a.isLt, hv⟩
    · exact hb x hx

/-- Memory with nothing listed is in canonical form (reset). -/
theorem wf_nil : Memory.wf ⟨[]⟩ = true := by decide

/-! ## Words (R62 to R64, R69) -/

/-- What a word write does to every byte: the four bytes from `a` on (modulo 2^64) are the word's, in order, and no other
byte changes (R64). -/
theorem readByte_writeWord (m : Memory) (a b : Word) (w : Word32) :
    (m.writeWord a w).readByte b = if (b - a).toNat < 4 then byteOfWord w (b - a).toNat else m.readByte b := by
  obtain ⟨d, rfl⟩ : ∃ d, b = a + d := ⟨b - a, by simp⟩
  have hd : a + d - a = d := by simp
  have h0 : a + d = a ↔ d.toNat = 0 := by bv_omega
  have h (k : Word) : a + d = a + k ↔ d.toNat = k.toNat := by rw [BitVec.toNat_inj]; bv_omega
  simp only [Memory.writeWord, readByte_writeByte, hd, h0, h]
  have e1 : (1#64).toNat = 1 := rfl
  have e2 : (2#64).toNat = 2 := rfl
  have e3 : (3#64).toNat = 3 := rfl
  split
  · rename_i e; simp [show d.toNat = 3 from e]
  · split
    · rename_i e; simp [show d.toNat = 2 from e]
    · split
      · rename_i e; simp [show d.toNat = 1 from e]
      · split
        · rename_i e; simp [e]
        · rw [if_neg (by simp at *; omega)]

/-- A word read after a word write at the same address gives the word written (R63, R64, R77). -/
theorem readWord_writeWord (m : Memory) (a : Word) (w : Word32) : (m.writeWord a w).readWord a = w := by
  simp [Memory.readWord, readByte_writeWord, wordOfBytes_byteOfWord]

/-- A word write keeps the canonical form. -/
theorem wf_writeWord (m : Memory) (a : Word) (w : Word32) (h : m.wf = true) : (m.writeWord a w).wf = true :=
  wf_writeByte _ _ _ (wf_writeByte _ _ _ (wf_writeByte _ _ _ (wf_writeByte _ _ _ h)))

end Sys2Proof.Machine
end

