-- ==== Sys2Proof/Laws/Checks.lean ====
section
/-! SUPPORT. What the checks of a fetch and of a data access can answer (20_memory.md R65 to R68, R74), and what a step
can do (10_state.md R38, R39). -/

namespace Sys2Proof.Machine

/-! ## Mapping (R61, R66) -/

/-- A word is mapped exactly when its four bytes are. -/
theorem wordMapped_iff (c : Config) (a : Word) : wordMapped c a = true ↔ BytesMapped c a 4 := by
  unfold wordMapped BytesMapped
  simp only [Bool.and_eq_true]
  constructor
  · rintro ⟨⟨⟨h0, h1⟩, h2⟩, h3⟩ k hk
    interval_cases k
    · simpa using h0
    · exact h1
    · exact h2
    · exact h3
  · intro h
    exact ⟨⟨⟨by simpa using h 0 (by omega), h 1 (by omega)⟩, h 2 (by omega)⟩, h 3 (by omega)⟩

/-- Eight bytes are mapped exactly when the words at `a` and `a + 4` are (R250, R260). -/
theorem bytesMapped_eight_iff (c : Config) (a : Word) :
    BytesMapped c a 8 ↔ wordMapped c a = true ∧ wordMapped c (a + 4) = true := by
  rw [wordMapped_iff, wordMapped_iff]
  unfold BytesMapped
  have hadd (k : Nat) : a + 4 + BitVec.ofNat 64 k = a + BitVec.ofNat 64 (k + 4) := by
    rw [BitVec.add_assoc, Nat.add_comm]; congr 1; simp [BitVec.ofNat_add]
  constructor
  · exact fun h => ⟨fun k hk => h k (by omega), fun k hk => by rw [hadd]; exact h (k + 4) (by omega)⟩
  · rintro ⟨hlo, hhi⟩ k hk
    by_cases h4 : k < 4
    · exact hlo k h4
    · have := hhi (k - 4) (by omega)
      rwa [hadd, show k - 4 + 4 = k by omega] at this

/-- `isAligned` is "a multiple of 4" (R65). -/
theorem isAligned_iff (a : Word) : isAligned a = true ↔ a.toNat % 4 = 0 := by simp [isAligned, lane_eq_mod]

theorem halfwordCrosses_iff (a : Word) : halfwordCrosses a = true ↔ a.toNat % 4 = 3 := by
  simp only [halfwordCrosses, lane_eq_mod, decide_eq_true_eq]; omega

/-! ## Data checks (R65, R66, R74, R305) -/

/-- The data checks pass exactly when alignment allows the address and every word is mapped. -/
theorem dataFault_eq_none_iff (s : State) (ea : Word) (mis : Bool) (words : List Word) :
    dataFault s ea mis words = none ↔
      AlignmentAllows s.config (mis = false) ∧ ∀ a ∈ words, wordMapped s.config a = true := by
  unfold dataFault AlignmentAllows
  cases hp : s.config.alignPolicy <;> cases mis <;> simp

/-- Everything the data checks can answer when they fail: alignment first, then mapping. -/
theorem dataFault_eq_some_iff (s : State) (ea : Word) (mis : Bool) (words : List Word) (f : Fault) :
    dataFault s ea mis words = some f ↔
      (¬ AlignmentAllows s.config (mis = false) ∧ f = .misalignedData s.current.pc ea) ∨
      (AlignmentAllows s.config (mis = false) ∧ (∃ a ∈ words, wordMapped s.config a = false) ∧
        f = .unmappedData s.current.pc ea) := by
  have hw : (∃ a ∈ words, wordMapped s.config a = false) ↔ ¬ (words.all fun a => wordMapped s.config a) = true := by
    simp
  rw [hw]
  unfold dataFault AlignmentAllows
  cases hp : s.config.alignPolicy <;> cases mis <;> cases hm : words.all fun a => wordMapped s.config a <;>
    simp [eq_comm (b := f)]

/-- A guarded result is reached exactly when the checks pass. -/
theorem guarded_eq_next_iff (fault : Option Fault) (t u : State) :
    guarded fault t = .next u ↔ fault = none ∧ u = t := by
  cases fault <;> simp [guarded, eq_comm]

theorem guarded_eq_fault_iff (fault : Option Fault) (t : State) (f : Fault) :
    guarded fault t = .fault f ↔ fault = some f := by
  cases fault <;> simp [guarded]

theorem guarded_ne_refused (fault : Option Fault) (t : State) (r : Refusal) : guarded fault t ≠ .refused r := by
  cases fault <;> simp [guarded]

/-! ## Fetch (R62, R66, R67) -/

/-- A fetch returns the word at the pc exactly when alignment allows the pc and its four bytes are mapped. -/
theorem fetchWord_eq_ok_iff (s : State) (w : Word32) :
    fetchWord s = .ok w ↔ AlignmentAllows s.config (s.current.pc.toNat % 4 = 0) ∧ BytesMapped s.config s.current.pc 4 ∧
      w = s.mem.readWord s.current.pc := by
  rw [← wordMapped_iff, ← isAligned_iff]
  unfold fetchWord fetchFault AlignmentAllows
  cases hp : s.config.alignPolicy <;> cases hm : wordMapped s.config s.current.pc <;>
    cases ha : isAligned s.current.pc <;> simp [eq_comm]

/-- Everything a fetch can answer when it fails (R303). -/
theorem fetchWord_eq_error_iff (s : State) (f : Fault) :
    fetchWord s = .error f ↔
      (¬ AlignmentAllows s.config (s.current.pc.toNat % 4 = 0) ∧ f = .misalignedFetch s.current.pc) ∨
      (AlignmentAllows s.config (s.current.pc.toNat % 4 = 0) ∧ ¬ BytesMapped s.config s.current.pc 4 ∧
        f = .unmappedFetch s.current.pc) := by
  rw [← wordMapped_iff, ← isAligned_iff]
  unfold fetchWord fetchFault AlignmentAllows
  cases hp : s.config.alignPolicy <;> cases hm : wordMapped s.config s.current.pc <;>
    cases ha : isAligned s.current.pc <;> simp [eq_comm]

/-! ## What a step can do (R38, R39) -/

theorem commitOutcome_eq_next_iff (o : Host.Outcome State Fault Refusal) (t : State) :
    commitOutcome o = .next t ↔ ∃ u, o = .next u ∧ t = commit u := by
  cases o <;> simp [commitOutcome, eq_comm]

theorem commitOutcome_eq_fault_iff (o : Host.Outcome State Fault Refusal) (f : Fault) :
    commitOutcome o = .fault f ↔ o = .fault f := by
  cases o <;> simp [commitOutcome]

/-- A step that goes on: `run_bit` was true, the fetch returned a word, the handler of that word ran from the staged state
and its result was committed. The handler is an instruction's meaning or that of the class UNKNOWN. -/
theorem step_eq_next_iff (s t : State) :
    step s = .next t ↔ s.runBit = true ∧ ∃ w u, fetchWord s = .ok w ∧ t = commit u ∧
      ((∃ i, decode s.config.shiftReading w = .ok i ∧ exec i (afterFetch w s) = .next u) ∨
       (∃ e, decode s.config.shiftReading w = .error e ∧ execUnknown (afterFetch w s) = .next u)) := by
  unfold step
  by_cases hr : s.runBit = true
  · simp only [hr, if_true, true_and]
    cases hf : fetchWord s with
    | error f => simp
    | ok w =>
      have hc : (afterFetch w s).config = s.config := rfl
      simp only [commitOutcome_eq_next_iff, execWord, hc, Except.ok.injEq, exists_and_left, exists_eq_left']
      cases hd : decode s.config.shiftReading w <;> simp [and_comm]
  · simp [hr]

/-- A step that faults: in its fetch, or in the handler of the fetched instruction. -/
theorem step_eq_fault_iff (s : State) (f : Fault) :
    step s = .fault f ↔ s.runBit = true ∧ (fetchWord s = .error f ∨
      ∃ w i, fetchWord s = .ok w ∧ decode s.config.shiftReading w = .ok i ∧ exec i (afterFetch w s) = .fault f) := by
  unfold step
  by_cases hr : s.runBit = true
  · simp only [hr, if_true, true_and]
    cases hf : fetchWord s with
    | error g => simp
    | ok w =>
      have hc : (afterFetch w s).config = s.config := rfl
      simp only [commitOutcome_eq_fault_iff, execWord, hc]
      cases hd : decode s.config.shiftReading w <;> simp [execUnknown, retire, hd]
  · simp [hr]

end Sys2Proof.Machine
end

