-- ==== Sys2Proof/Laws/Encoding.lean ====
section
/-! SUPPORT. Fields of an encoded word, as numbers (30_encoding.md R91, R93), and the opcode table's lookups (R100,
R101). -/

namespace Sys2Proof

open Sys2Proof.Machine (toNat_append_add)

/-! ## Encodings as numbers -/

theorem toNat_regBits (r : Reg) : (regBits r).toNat = r.val := rfl

theorem toNat_encodeR (op11 : BitVec 11) (rm : Reg) (x6 : BitVec 6) (rn rd : Reg) : (encodeR op11 rm x6 rn rd).toNat =
    op11.toNat * 2 ^ 21 + rm.val * 2 ^ 16 + x6.toNat * 2 ^ 10 + rn.val * 2 ^ 5 + rd.val := by
  unfold encodeR; simp only [toNat_append_add, toNat_regBits]; omega

theorem toNat_encodeI (op8 : BitVec 8) (sh : ImmShift) (imm12 : BitVec 12) (rn rd : Reg) :
    (encodeI op8 sh imm12 rn rd).toNat =
    op8.toNat * 2 ^ 24 + (shOfImmShift sh).toNat * 2 ^ 22 + imm12.toNat * 2 ^ 10 + rn.val * 2 ^ 5 + rd.val := by
  unfold encodeI; simp only [toNat_append_add, toNat_regBits]; omega

theorem toNat_encodeBF (op10 : BitVec 10) (immr imms : BitVec 6) (rn rd : Reg) :
    (encodeBF op10 immr imms rn rd).toNat =
    op10.toNat * 2 ^ 22 + immr.toNat * 2 ^ 16 + imms.toNat * 2 ^ 10 + rn.val * 2 ^ 5 + rd.val := by
  unfold encodeBF; simp only [toNat_append_add, toNat_regBits]; omega

theorem toNat_encodeD (op11 : BitVec 11) (imm9 : BitVec 9) (rn rd : Reg) : (encodeD op11 imm9 rn rd).toNat =
    op11.toNat * 2 ^ 21 + imm9.toNat * 2 ^ 12 + rn.val * 2 ^ 5 + rd.val := by
  unfold encodeD; simp only [toNat_append_add, toNat_regBits, BitVec.toNat_ofNat]; omega

theorem toNat_encodeB (op6 : BitVec 6) (imm26 : BitVec 26) : (encodeB op6 imm26).toNat =
    op6.toNat * 2 ^ 26 + imm26.toNat := by
  unfold encodeB; simp only [toNat_append_add]

theorem toNat_encodeCB (op8 : BitVec 8) (imm19 : BitVec 19) (rd : Reg) : (encodeCB op8 imm19 rd).toNat =
    op8.toNat * 2 ^ 24 + imm19.toNat * 2 ^ 5 + rd.val := by
  unfold encodeCB; simp only [toNat_append_add, toNat_regBits]; omega

theorem toNat_encodeCBc (op8 : BitVec 8) (imm19 : BitVec 19) (cond : Cond) : (encodeCBc op8 imm19 cond).toNat =
    op8.toNat * 2 ^ 24 + imm19.toNat * 2 ^ 5 + (codeOfCond cond).toNat := by
  unfold encodeCBc; simp only [toNat_append_add, BitVec.toNat_ofNat]; omega

theorem toNat_encodeIW (op9 : BitVec 9) (hw : BitVec 2) (imm16 : BitVec 16) (rd : Reg) :
    (encodeIW op9 hw imm16 rd).toNat = op9.toNat * 2 ^ 23 + hw.toNat * 2 ^ 21 + imm16.toNat * 2 ^ 5 + rd.val := by
  unfold encodeIW; simp only [toNat_append_add, toNat_regBits]; omega

theorem toNat_encodeS (op11 : BitVec 11) : (encodeS op11).toNat = op11.toNat * 2 ^ 21 := by
  unfold encodeS; simp only [toNat_append_add, BitVec.toNat_ofNat]; omega

/-! ## Fields as numbers -/

/-- A field of a word, from bit `lo` on, `n` bits wide. -/
theorem toNat_field (w : Word32) (lo n : Nat) : (w.extractLsb' lo n).toNat = w.toNat / 2 ^ lo % 2 ^ n := by
  simp [BitVec.extractLsb'_toNat, Nat.shiftRight_eq_div_pow]

theorem toNat_fieldOp11 (w : Word32) : (fieldOp11 w).toNat = w.toNat / 2 ^ 21 % 2 ^ 11 := toNat_field _ _ _
theorem toNat_fieldOp8 (w : Word32) : (fieldOp8 w).toNat = w.toNat / 2 ^ 24 % 2 ^ 8 := toNat_field _ _ _

theorem regField_eq (w : Word32) (lo : Nat) (r : Reg) (h : w.toNat / 2 ^ lo % 2 ^ 5 = r.val) : regField w lo = r :=
  Fin.ext ((toNat_field w lo 5).trans h)

/-! ## The opcode table (R101) -/

/-- op8 is the top of op11 (R91). -/
theorem fieldOp8_of_fieldOp11 (w : Word32) : (fieldOp8 w).toNat = (fieldOp11 w).toNat / 8 := by
  rw [toNat_fieldOp8, toNat_fieldOp11]; omega

/-- The class of a word is a function of its op11 alone (R100). -/
def classOfOp11 (op : BitVec 11) : Option OpClass :=
  if op.toNat / 8 = 0x54 then some .bCond else lookupOp11 op

theorem classify_eq (w : Word32) : classify w = classOfOp11 (fieldOp11 w) := by
  unfold classify classOfOp11
  have : fieldOp8 w = 0x54#8 ↔ (fieldOp11 w).toNat / 8 = 0x54 := by
    rw [← fieldOp8_of_fieldOp11, ← BitVec.toNat_inj]; rfl
  simp only [this]

/-- The class of every op11 in a range, checked value by value. -/
theorem classOfOp11_of_range (lo n : Nat) (cls : OpClass) (op : BitVec 11)
    (hall : ∀ k : Fin n, classOfOp11 (BitVec.ofNat 11 (lo + k)) = some cls) (h : lo ≤ op.toNat ∧ op.toNat < lo + n) :
    classOfOp11 op = some cls := by
  have := hall ⟨op.toNat - lo, by omega⟩
  rwa [show lo + (op.toNat - lo) = op.toNat by omega, BitVec.ofNat_toNat, BitVec.setWidth_eq] at this

/-- The class of a word whose op11 is in a range. -/
theorem classify_of_range (lo n : Nat) (cls : OpClass) (w : Word32)
    (hall : ∀ k : Fin n, classOfOp11 (BitVec.ofNat 11 (lo + k)) = some cls)
    (h : lo ≤ w.toNat / 2 ^ 21 ∧ w.toNat / 2 ^ 21 < lo + n) : classify w = some cls := by
  rw [classify_eq]
  refine classOfOp11_of_range lo n cls _ hall ?_
  rw [toNat_fieldOp11]
  have := w.isLt
  omega

/-- No op11 value has two rows, and none lies in the window of B.cond (R101): the order of the lookups changes nothing. -/
theorem opTable_disjoint : opTable.Pairwise fun x y => x.hi < y.lo ∨ y.hi < x.lo := by decide

theorem opTable_outside_bCond : ∀ row ∈ opTable, row.hi < 0x2A0#11 ∨ 0x2A7#11 < row.lo := by decide

/-! ## Conditions and shifts of the immediate -/

theorem condOfCode_codeOfCond (c : Cond) (h : c.wellFormed = true) : condOfCode (codeOfCond c) = c := by
  cases c with
  | unrecognised code => simpa [Cond.wellFormed, codeOfCond] using h
  | eq => rfl
  | ne => rfl
  | ge => rfl
  | lt => rfl
  | gt => rfl
  | le => rfl

theorem condOfCode_wellFormed : ∀ code : BitVec 4, (condOfCode code).wellFormed = true := by decide

theorem codeOfCond_condOfCode : ∀ code : BitVec 4, codeOfCond (condOfCode code) = code := by decide

theorem immShiftOf_shOfImmShift (sh : ImmShift) : immShiftOf (shOfImmShift sh) = sh := by cases sh <;> rfl

end Sys2Proof
end

