-- ==== Sys2Proof/Laws/LoadStore.lean ====
section
/-! SUPPORT. What the load and store operations do, byte by byte: the read-modify-write of a containing word changes the
bytes stored and no other, and a masked load gives the bytes at the address (20_memory.md R70, 45_loadstore.md). -/

namespace Sys2Proof.Machine

/-! ## Bytes of a word in memory -/

/-- Byte `k` of the word at `a` is the byte at `a + k` (R62, R70). -/
theorem byteOfWord_readWord (m : Memory) (a : Word) (k : Nat) (hk : k < 4) :
    byteOfWord (m.readWord a) k = m.readByte (a + BitVec.ofNat 64 k) := by
  obtain ⟨h0, h1, h2, h3⟩ := byteOfWord_wordOfBytes (m.readByte a) (m.readByte (a + 1)) (m.readByte (a + 2))
    (m.readByte (a + 3))
  interval_cases k
  · rw [show a + BitVec.ofNat 64 0 = a by simp]; exact h0
  · exact h1
  · exact h2
  · exact h3

/-- The byte at `a` is the byte at its lane of the containing word (R70). -/
theorem byteOfWord_readWord_lane (m : Memory) (a : Word) :
    byteOfWord (m.readWord (wordAddress a)) (lane a) = m.readByte a := by
  rw [byteOfWord_readWord _ _ _ (lane_lt a), wordAddress_add_lane]

/-- An address in the containing word of `a`, as an offset from `a`. -/
theorem sub_wordAddress (a b : Word) : b - wordAddress a = (b - a) + BitVec.ofNat 64 (lane a) := by
  have := wordAddress_add_lane a
  generalize wordAddress a = w at *
  generalize BitVec.ofNat 64 (lane a) = l at *
  subst this; bv_omega

/-- What a word write at `wa(a)` does to the byte at `b`, by the byte's place in the word. -/
theorem readByte_writeWord_wordAddress (m : Memory) (a b : Word) (w : Word32) :
    (m.writeWord (wordAddress a) w).readByte b =
      if (b - wordAddress a).toNat < 4 then byteOfWord w (b - wordAddress a).toNat else m.readByte b :=
  readByte_writeWord _ _ _ _

theorem readByte_of_offset (m : Memory) (a b : Word) (h : (b - a).toNat < 4) :
    byteOfWord (m.readWord a) (b - a).toNat = m.readByte b := by
  rw [byteOfWord_readWord _ _ _ h]; congr 1; bv_omega

/-- `b` is `a` exactly when it has `a`'s place in the word that holds `a`. -/
theorem offset_eq_lane_iff (a b : Word) : (b - wordAddress a).toNat = lane a ↔ b = a := by
  have h := wordAddress_add_lane a
  have hl := lane_lt a
  constructor
  · intro e; rw [← h, ← e]; bv_omega
  · rintro rfl
    have hn : (BitVec.ofNat 64 (lane b)).toNat = lane b := by rw [BitVec.toNat_ofNat]; omega
    generalize wordAddress b = w at *
    generalize lane b = l at *
    generalize BitVec.ofNat 64 l = L at *
    subst h; bv_omega

/-! ## Stores -/

/-- A byte store changes the byte at its address and no other: the rest of the containing word is preserved (R251). -/
theorem readByte_storeByte (a b : Word) (v : Byte) (s : State) :
    (storeByte a v s).mem.readByte b = if b = a then v else s.mem.readByte b := by
  simp only [storeByte, storeWord_mem, loadWord_state_mem, loadWord_value, readByte_writeWord_wordAddress]
  by_cases hin : (b - wordAddress a).toNat < 4
  · rw [if_pos hin, byteOfWord_insertLane_byte _ _ _ _ (lane_lt a) hin]
    simp only [offset_eq_lane_iff, readByte_of_offset _ _ _ hin]
  · have hne : b ≠ a := fun e => hin (by rw [(offset_eq_lane_iff a b).mpr e]; exact lane_lt a)
    rw [if_neg hin, if_neg hne]

/-- A halfword store changes the two bytes at its address and no other, in one word or across two (R252). -/
theorem readByte_storeHalfword (a b : Word) (h : BitVec 16) (s : State) :
    (storeHalfword a h s).mem.readByte b =
      if b = a then h.extractLsb' 0 8 else if b = a + 1 then h.extractLsb' 8 8 else s.mem.readByte b := by
  have hl := lane_lt a
  have ha := wordAddress_add_lane a
  have hnext : b = a + 1 ↔ (b - wordAddress a).toNat = lane a + 1 := by
    have hn : (BitVec.ofNat 64 (lane a)).toNat = lane a := by rw [BitVec.toNat_ofNat]; omega
    generalize wordAddress a = w at *
    generalize lane a = l at *
    generalize hL : BitVec.ofNat 64 l = L at *
    subst ha; subst hn
    constructor
    · rintro rfl; bv_omega
    · intro e
      have : b - w = L + 1 := by bv_omega
      bv_omega
  unfold storeHalfword
  split
  · rename_i hle
    simp only [storeWord_mem, loadWord_state_mem, loadWord_value, readByte_writeWord_wordAddress]
    by_cases hin : (b - wordAddress a).toNat < 4
    · rw [if_pos hin, byteOfWord_insertLane_half _ _ _ _ (by omega) hin]
      simp only [offset_eq_lane_iff, ← hnext, readByte_of_offset _ _ _ hin]
    · have hne : b ≠ a := fun e => hin (by rw [(offset_eq_lane_iff a b).mpr e]; exact hl)
      have hne1 : b ≠ a + 1 := fun e => hin (by rw [hnext.mp e]; omega)
      rw [if_neg hin, if_neg hne, if_neg hne1]
  · rename_i hgt
    have h3 : lane a = 3 := by omega
    simp only [storeWord_mem, loadWord_state_mem, loadWord_value, readByte_writeWord]
    have e4 : (b - (wordAddress a + 4)).toNat < 4 ↔ 4 ≤ (b - wordAddress a).toNat ∧ (b - wordAddress a).toNat < 8 := by
      generalize wordAddress a = w at *; bv_omega
    have e0 : (b - (wordAddress a + 4)).toNat = 0 ↔ (b - wordAddress a).toNat = 4 := by
      generalize wordAddress a = w at *; bv_omega
    have heq : b = a ↔ (b - wordAddress a).toNat = 3 := by rw [← offset_eq_lane_iff, h3]
    rw [h3] at hnext
    by_cases hhi : (b - (wordAddress a + 4)).toNat < 4
    · rw [if_pos hhi, byteOfWord_insertLane_byte _ _ _ _ (by omega) hhi]
      simp only [heq, hnext, e0, readByte_of_offset _ _ _ hhi]
      rw [if_neg (show ¬ (b - wordAddress a).toNat = 3 by omega)]
    · rw [if_neg hhi]
      by_cases hlo : (b - wordAddress a).toNat < 4
      · rw [if_pos hlo, byteOfWord_insertLane_byte _ _ _ _ (by omega) hlo]
        simp only [heq, hnext, readByte_of_offset _ _ _ hlo]
        split
        · rfl
        · rw [if_neg (by omega)]
      · rw [if_neg hlo]
        simp only [heq, hnext]
        rw [if_neg (by omega), if_neg (by omega)]

/-- A 64-bit store changes the eight bytes from its address on and no other; byte `k` there is byte `k` of the value
(R250, D23). -/
theorem readByte_storeDoubleword (a b v : Word) (s : State) :
    (storeDoubleword a v s).mem.readByte b =
      if (b - a).toNat < 8 then v.extractLsb' (8 * (b - a).toNat) 8 else s.mem.readByte b := by
  simp only [storeDoubleword, storeWord_mem, readByte_writeWord]
  have e4 : (b - (a + 4)).toNat < 4 ↔ 4 ≤ (b - a).toNat ∧ (b - a).toNat < 8 := by bv_omega
  have e : 4 ≤ (b - a).toNat → (b - (a + 4)).toNat = (b - a).toNat - 4 := by bv_omega
  have hx (o k : Nat) (hk : k < 4) :
      byteOfWord (v.extractLsb' o 32) k = v.extractLsb' (o + 8 * k) 8 := by
    apply BitVec.eq_of_getLsbD_eq; intro i hi
    simp only [byteOfWord, BitVec.getLsbD_extractLsb', hi, show 8 * k + i < 32 by omega, decide_true, Bool.true_and]
    congr 1; omega
  by_cases hhi : (b - (a + 4)).toNat < 4
  · have h4 := (e4.mp hhi).1
    rw [if_pos hhi, hx 32 _ hhi, if_pos (by omega), e h4]; congr 1; omega
  · rw [if_neg hhi]
    by_cases hlo : (b - a).toNat < 4
    · rw [if_pos hlo, hx 0 _ hlo, if_pos (by omega)]; congr 1; omega
    · rw [if_neg hlo, if_neg (by omega)]

/-! ## Loads -/

/-- A byte load gives the byte at its address (R261). -/
@[simp] theorem loadByte_value (a : Word) (s : State) : (loadByte a s).1 = s.mem.readByte a :=
  byteOfWord_readWord_lane s.mem a

/-- A halfword load gives the two bytes at its address, in one word or across two (R262). -/
@[simp] theorem loadHalfword_value (a : Word) (s : State) :
    (loadHalfword a s).1 = s.mem.readByte (a + 1) ++ s.mem.readByte a := by
  have hl := lane_lt a
  have ha := wordAddress_add_lane a
  have h0 := byteOfWord_readWord_lane s.mem a
  unfold loadHalfword
  split
  · rename_i hle
    have h1 : byteOfWord (s.mem.readWord (wordAddress a)) (lane a + 1) = s.mem.readByte (a + 1) := by
      rw [byteOfWord_readWord _ _ _ (by omega)]
      congr 1
      conv_rhs => rw [← ha]
      rw [BitVec.ofNat_add, BitVec.add_assoc]; rfl
    rw [← h0, ← h1]
    apply BitVec.eq_of_getLsbD_eq; intro i hi
    simp only [extractLane, byteOfWord, loadWord_value, BitVec.getLsbD_append, BitVec.getLsbD_extractLsb', hi,
      decide_true, Bool.true_and]
    by_cases h8 : i < 8
    · simp [h8]
    · simp only [h8, decide_false, show i - 8 < 8 by omega, decide_true, Bool.true_and]
      congr 1; omega
  · have h3 : lane a = 3 := by omega
    have h1 : byteOfWord (s.mem.readWord (wordAddress a + 4)) 0 = s.mem.readByte (a + 1) := by
      rw [byteOfWord_readWord _ _ _ (by omega)]
      congr 1
      conv_rhs => rw [← ha, h3]
      generalize wordAddress a = w
      bv_omega
    rw [h3] at h0
    rw [← h0, ← h1]; rfl

/-- Byte `k` of a 64-bit load is the byte at `a + k` (R260). -/
theorem loadDoubleword_byte (a : Word) (s : State) (k : Nat) (hk : k < 8) :
    (loadDoubleword a s).1.extractLsb' (8 * k) 8 = s.mem.readByte (a + BitVec.ofNat 64 k) := by
  have hval : (loadDoubleword a s).1 = s.mem.readWord (a + 4) ++ s.mem.readWord a := rfl
  rw [hval]
  by_cases h4 : k < 4
  · rw [← byteOfWord_readWord _ _ _ h4, BitVec.extractLsb'_append_eq_of_add_le (by omega)]; rfl
  · have hk' : k - 4 < 4 := by omega
    have := byteOfWord_readWord s.mem (a + 4) (k - 4) hk'
    rw [BitVec.extractLsb'_append_eq_of_le (by omega), show 8 * k - 32 = 8 * (k - 4) by omega]
    refine this.trans ?_
    congr 1
    rw [BitVec.add_assoc]; congr 1
    interval_cases k <;> rfl

/-! ## Frames: a store writes memory and the record of the ports, a load the record alone -/

@[simp] theorem storeDoubleword_config (a v : Word) (s : State) : (storeDoubleword a v s).config = s.config := rfl
@[simp] theorem storeDoubleword_current (a v : Word) (s : State) : (storeDoubleword a v s).current = s.current := rfl
@[simp] theorem storeDoubleword_next (a v : Word) (s : State) : (storeDoubleword a v s).next = s.next := rfl
@[simp] theorem storeDoubleword_runBit (a v : Word) (s : State) : (storeDoubleword a v s).runBit = s.runBit := rfl

@[simp] theorem storeByte_config (a : Word) (v : Byte) (s : State) : (storeByte a v s).config = s.config := rfl
@[simp] theorem storeByte_current (a : Word) (v : Byte) (s : State) : (storeByte a v s).current = s.current := rfl
@[simp] theorem storeByte_next (a : Word) (v : Byte) (s : State) : (storeByte a v s).next = s.next := rfl
@[simp] theorem storeByte_runBit (a : Word) (v : Byte) (s : State) : (storeByte a v s).runBit = s.runBit := rfl

@[simp] theorem storeHalfword_config (a : Word) (h : BitVec 16) (s : State) : (storeHalfword a h s).config = s.config := by
  unfold storeHalfword; split <;> rfl
@[simp] theorem storeHalfword_current (a : Word) (h : BitVec 16) (s : State) : (storeHalfword a h s).current = s.current := by
  unfold storeHalfword; split <;> rfl
@[simp] theorem storeHalfword_next (a : Word) (h : BitVec 16) (s : State) : (storeHalfword a h s).next = s.next := by
  unfold storeHalfword; split <;> rfl
@[simp] theorem storeHalfword_runBit (a : Word) (h : BitVec 16) (s : State) : (storeHalfword a h s).runBit = s.runBit := by
  unfold storeHalfword; split <;> rfl

@[simp] theorem loadDoubleword_state_config (a : Word) (s : State) : (loadDoubleword a s).2.config = s.config := rfl
@[simp] theorem loadDoubleword_state_current (a : Word) (s : State) : (loadDoubleword a s).2.current = s.current := rfl
@[simp] theorem loadDoubleword_state_next (a : Word) (s : State) : (loadDoubleword a s).2.next = s.next := rfl
@[simp] theorem loadDoubleword_state_runBit (a : Word) (s : State) : (loadDoubleword a s).2.runBit = s.runBit := rfl
@[simp] theorem loadDoubleword_state_mem (a : Word) (s : State) : (loadDoubleword a s).2.mem = s.mem := rfl

@[simp] theorem loadByte_state_config (a : Word) (s : State) : (loadByte a s).2.config = s.config := rfl
@[simp] theorem loadByte_state_current (a : Word) (s : State) : (loadByte a s).2.current = s.current := rfl
@[simp] theorem loadByte_state_next (a : Word) (s : State) : (loadByte a s).2.next = s.next := rfl
@[simp] theorem loadByte_state_runBit (a : Word) (s : State) : (loadByte a s).2.runBit = s.runBit := rfl
@[simp] theorem loadByte_state_mem (a : Word) (s : State) : (loadByte a s).2.mem = s.mem := rfl

@[simp] theorem loadHalfword_state_config (a : Word) (s : State) : (loadHalfword a s).2.config = s.config := by
  unfold loadHalfword; split <;> rfl
@[simp] theorem loadHalfword_state_current (a : Word) (s : State) : (loadHalfword a s).2.current = s.current := by
  unfold loadHalfword; split <;> rfl
@[simp] theorem loadHalfword_state_next (a : Word) (s : State) : (loadHalfword a s).2.next = s.next := by
  unfold loadHalfword; split <;> rfl
@[simp] theorem loadHalfword_state_runBit (a : Word) (s : State) : (loadHalfword a s).2.runBit = s.runBit := by
  unfold loadHalfword; split <;> rfl
@[simp] theorem loadHalfword_state_mem (a : Word) (s : State) : (loadHalfword a s).2.mem = s.mem := by
  unfold loadHalfword; split <;> rfl

/-! ### The commands on the ports (R72) -/

theorem storeDoubleword_trace (a v : Word) (s : State) : (storeDoubleword a v s).trace =
    s.trace ++ [.store a (v.extractLsb' 0 32), .store (a + 4) (v.extractLsb' 32 32)] := by
  simp [storeDoubleword]

theorem loadDoubleword_trace (a : Word) (s : State) : (loadDoubleword a s).2.trace =
    s.trace ++ [.load a (s.mem.readWord a), .load (a + 4) (s.mem.readWord (a + 4))] := by
  simp [loadDoubleword]

theorem storeByte_trace (a : Word) (v : Byte) (s : State) : (storeByte a v s).trace =
    s.trace ++ [.load (wordAddress a) (s.mem.readWord (wordAddress a)),
      .store (wordAddress a) ((storeByte a v s).mem.readWord (wordAddress a))] := by
  simp [storeByte, readWord_writeWord]

theorem loadByte_trace (a : Word) (s : State) : (loadByte a s).2.trace =
    s.trace ++ [.load (wordAddress a) (s.mem.readWord (wordAddress a))] := by
  simp [loadByte]

/-- A word write at the next word leaves the word before it alone. -/
theorem readWord_writeWord_next (m : Memory) (a : Word) (w : Word32) :
    (m.writeWord (a + 4) w).readWord a = m.readWord a := by
  have h (k : Word) (hk : k.toNat < 4) : (m.writeWord (a + 4) w).readByte (a + k) = m.readByte (a + k) := by
    rw [readByte_writeWord, if_neg (by bv_omega)]
  have h0 := h 0 (by decide)
  simp only [Memory.readWord, h 1 (by decide), h 2 (by decide), h 3 (by decide)]
  rw [show (m.writeWord (a + 4) w).readByte a = m.readByte a by simpa using h0]

theorem storeHalfword_trace (a : Word) (h : BitVec 16) (s : State) : (storeHalfword a h s).trace =
    s.trace ++ if lane a ≤ 2
      then [.load (wordAddress a) (s.mem.readWord (wordAddress a)),
        .store (wordAddress a) ((storeHalfword a h s).mem.readWord (wordAddress a))]
      else [.load (wordAddress a) (s.mem.readWord (wordAddress a)),
        .load (wordAddress a + 4) (s.mem.readWord (wordAddress a + 4)),
        .store (wordAddress a) ((storeHalfword a h s).mem.readWord (wordAddress a)),
        .store (wordAddress a + 4) ((storeHalfword a h s).mem.readWord (wordAddress a + 4))] := by
  unfold storeHalfword
  have hn (m : Memory) (a : Word) (w : Word32) : (m.writeWord (a + 4#64) w).readWord a = m.readWord a :=
    readWord_writeWord_next m a w
  split <;> simp [readWord_writeWord, hn]

theorem loadHalfword_trace (a : Word) (s : State) : (loadHalfword a s).2.trace =
    s.trace ++ if lane a ≤ 2 then [.load (wordAddress a) (s.mem.readWord (wordAddress a))]
      else [.load (wordAddress a) (s.mem.readWord (wordAddress a)),
        .load (wordAddress a + 4) (s.mem.readWord (wordAddress a + 4))] := by
  unfold loadHalfword
  split <;> simp

/-! ### The canonical form (every store keeps it) -/

theorem wf_storeDoubleword (a v : Word) (s : State) (h : s.mem.wf = true) : (storeDoubleword a v s).mem.wf = true :=
  wf_writeWord _ _ _ (wf_writeWord _ _ _ h)

theorem wf_storeByte (a : Word) (v : Byte) (s : State) (h : s.mem.wf = true) : (storeByte a v s).mem.wf = true := wf_writeWord _ _ _ h

theorem wf_storeHalfword (a : Word) (h : BitVec 16) (s : State) (hw : s.mem.wf = true) : (storeHalfword a h s).mem.wf = true := by
  unfold storeHalfword
  split
  · exact wf_writeWord _ _ _ hw
  · exact wf_writeWord _ _ _ (wf_writeWord _ _ _ hw)

end Sys2Proof.Machine
end

