-- ==== Sys2Proof/Laws/PerInstr.lean ====
section
/-! SUPPORT. A family of one lemma per instruction: its encoded word is in its own row of the opcode table. -/

namespace Sys2Proof

/-- The class of the opcode table an instruction belongs to (R101). -/
def opClassOf : Instr → OpClass
  | .hlt => .hlt
  | .addsReg .. => .addsReg
  | .addsImm .. => .addsImm
  | .subsReg .. => .subsReg
  | .subsImm .. => .subsImm
  | .adcs .. => .adcs
  | .addReg .. => .addReg
  | .addImm .. => .addImm
  | .subReg .. => .subReg
  | .subImm .. => .subImm
  | .ands .. => .ands
  | .eor .. => .eor
  | .orr .. => .orr
  | .mul .. => .mul
  | .lsl .. => .shift
  | .lsr .. => .shift
  | .b .. => .b
  | .br .. => .br
  | .bCond .. => .bCond
  | .cbz .. => .cbz
  | .cbnz .. => .cbnz
  | .movz .. => .movz
  | .stur .. => .stur
  | .sturb .. => .sturb
  | .sturh .. => .sturh
  | .ldur .. => .ldur
  | .ldurb .. => .ldurb
  | .ldurh .. => .ldurh

/-- The encoded word of the instruction is looked up as the instruction's own class (R100, R101). -/
def Laws.EncodedClass.Statement (i : Instr) : Prop := classify (encode i) = some (opClassOf i)

end Sys2Proof

namespace Sys2Proof.Laws.EncodedClass

theorem hlt : Statement .hlt := by
  refine classify_of_range 0x6a2 1 .hlt _ (by decide) ?_
  rw [show (encode .hlt).toNat = _ from toNat_encodeS 0x6A2#11]
  simp only [BitVec.toNat_ofNat]; omega

theorem addsReg (rd rn rm : Reg) : Statement (.addsReg rd rn rm) := by
  refine classify_of_range 0x558 1 .addsReg _ (by decide) ?_
  rw [show (encode (.addsReg rd rn rm)).toNat = _ from toNat_encodeR 0x558#11 rm 0#6 rn rd]
  have := rd.isLt; have := rn.isLt; have := rm.isLt
  simp only [BitVec.toNat_ofNat]; omega

theorem addsImm (rd rn : Reg) (imm12 : BitVec 12) (sh : ImmShift) : Statement (.addsImm rd rn imm12 sh) := by
  have hs : (shOfImmShift sh).toNat ≤ 1 := by cases sh <;> decide
  refine classify_of_range 0x588 4 .addsImm _ (by decide) ?_
  rw [show (encode (.addsImm rd rn imm12 sh)).toNat = _ from toNat_encodeI 0xB1#8 sh imm12 rn rd]
  have := rd.isLt; have := rn.isLt; have := imm12.isLt
  simp only [BitVec.toNat_ofNat]; omega

theorem subsReg (rd rn rm : Reg) : Statement (.subsReg rd rn rm) := by
  refine classify_of_range 0x758 1 .subsReg _ (by decide) ?_
  rw [show (encode (.subsReg rd rn rm)).toNat = _ from toNat_encodeR 0x758#11 rm 0#6 rn rd]
  have := rd.isLt; have := rn.isLt; have := rm.isLt
  simp only [BitVec.toNat_ofNat]; omega

theorem subsImm (rd rn : Reg) (imm12 : BitVec 12) (sh : ImmShift) : Statement (.subsImm rd rn imm12 sh) := by
  have hs : (shOfImmShift sh).toNat ≤ 1 := by cases sh <;> decide
  refine classify_of_range 0x788 4 .subsImm _ (by decide) ?_
  rw [show (encode (.subsImm rd rn imm12 sh)).toNat = _ from toNat_encodeI 0xF1#8 sh imm12 rn rd]
  have := rd.isLt; have := rn.isLt; have := imm12.isLt
  simp only [BitVec.toNat_ofNat]; omega

theorem adcs (rd rn rm : Reg) : Statement (.adcs rd rn rm) := by
  refine classify_of_range 0x5d0 1 .adcs _ (by decide) ?_
  rw [show (encode (.adcs rd rn rm)).toNat = _ from toNat_encodeR 0x5D0#11 rm 0#6 rn rd]
  have := rd.isLt; have := rn.isLt; have := rm.isLt
  simp only [BitVec.toNat_ofNat]; omega

theorem addReg (rd rn rm : Reg) : Statement (.addReg rd rn rm) := by
  refine classify_of_range 0x458 1 .addReg _ (by decide) ?_
  rw [show (encode (.addReg rd rn rm)).toNat = _ from toNat_encodeR 0x458#11 rm 0#6 rn rd]
  have := rd.isLt; have := rn.isLt; have := rm.isLt
  simp only [BitVec.toNat_ofNat]; omega

theorem addImm (rd rn : Reg) (imm12 : BitVec 12) (sh : ImmShift) : Statement (.addImm rd rn imm12 sh) := by
  have hs : (shOfImmShift sh).toNat ≤ 1 := by cases sh <;> decide
  refine classify_of_range 0x488 4 .addImm _ (by decide) ?_
  rw [show (encode (.addImm rd rn imm12 sh)).toNat = _ from toNat_encodeI 0x91#8 sh imm12 rn rd]
  have := rd.isLt; have := rn.isLt; have := imm12.isLt
  simp only [BitVec.toNat_ofNat]; omega

theorem subReg (rd rn rm : Reg) : Statement (.subReg rd rn rm) := by
  refine classify_of_range 0x658 1 .subReg _ (by decide) ?_
  rw [show (encode (.subReg rd rn rm)).toNat = _ from toNat_encodeR 0x658#11 rm 0#6 rn rd]
  have := rd.isLt; have := rn.isLt; have := rm.isLt
  simp only [BitVec.toNat_ofNat]; omega

theorem subImm (rd rn : Reg) (imm12 : BitVec 12) (sh : ImmShift) : Statement (.subImm rd rn imm12 sh) := by
  have hs : (shOfImmShift sh).toNat ≤ 1 := by cases sh <;> decide
  refine classify_of_range 0x688 4 .subImm _ (by decide) ?_
  rw [show (encode (.subImm rd rn imm12 sh)).toNat = _ from toNat_encodeI 0xD1#8 sh imm12 rn rd]
  have := rd.isLt; have := rn.isLt; have := imm12.isLt
  simp only [BitVec.toNat_ofNat]; omega

theorem ands (rd rn rm : Reg) : Statement (.ands rd rn rm) := by
  refine classify_of_range 0x750 1 .ands _ (by decide) ?_
  rw [show (encode (.ands rd rn rm)).toNat = _ from toNat_encodeR 0x750#11 rm 0#6 rn rd]
  have := rd.isLt; have := rn.isLt; have := rm.isLt
  simp only [BitVec.toNat_ofNat]; omega

theorem eor (rd rn rm : Reg) : Statement (.eor rd rn rm) := by
  refine classify_of_range 0x650 1 .eor _ (by decide) ?_
  rw [show (encode (.eor rd rn rm)).toNat = _ from toNat_encodeR 0x650#11 rm 0#6 rn rd]
  have := rd.isLt; have := rn.isLt; have := rm.isLt
  simp only [BitVec.toNat_ofNat]; omega

theorem orr (rd rn rm : Reg) : Statement (.orr rd rn rm) := by
  refine classify_of_range 0x550 1 .orr _ (by decide) ?_
  rw [show (encode (.orr rd rn rm)).toNat = _ from toNat_encodeR 0x550#11 rm 0#6 rn rd]
  have := rd.isLt; have := rn.isLt; have := rm.isLt
  simp only [BitVec.toNat_ofNat]; omega

theorem mul (rd rn rm : Reg) : Statement (.mul rd rn rm) := by
  refine classify_of_range 0x4d8 1 .mul _ (by decide) ?_
  rw [show (encode (.mul rd rn rm)).toNat = _ from toNat_encodeR 0x4D8#11 rm 0b011111#6 rn rd]
  have := rd.isLt; have := rn.isLt; have := rm.isLt
  simp only [BitVec.toNat_ofNat]; omega

theorem lsl (rd rn : Reg) (immr imms : BitVec 6) : Statement (.lsl rd rn immr imms) := by
  refine classify_of_range 0x69a 2 .shift _ (by decide) ?_
  rw [show (encode (.lsl rd rn immr imms)).toNat = _ from toNat_encodeBF 0x34D#10 immr imms rn rd]
  have := rd.isLt; have := rn.isLt; have := immr.isLt; have := imms.isLt
  simp only [BitVec.toNat_ofNat]; omega

theorem lsr (rd rn : Reg) (immr imms : BitVec 6) : Statement (.lsr rd rn immr imms) := by
  refine classify_of_range 0x69a 2 .shift _ (by decide) ?_
  rw [show (encode (.lsr rd rn immr imms)).toNat = _ from toNat_encodeBF 0x34D#10 immr imms rn rd]
  have := rd.isLt; have := rn.isLt; have := immr.isLt; have := imms.isLt
  simp only [BitVec.toNat_ofNat]; omega

theorem b (imm26 : BitVec 26) : Statement (.b imm26) := by
  refine classify_of_range 0xa0 32 .b _ (by decide) ?_
  rw [show (encode (.b imm26)).toNat = _ from toNat_encodeB 0b000101#6 imm26]
  have := imm26.isLt
  simp only [BitVec.toNat_ofNat]; omega

theorem br (rn : Reg) : Statement (.br rn) := by
  refine classify_of_range 0x6b0 1 .br _ (by decide) ?_
  rw [show (encode (.br rn)).toNat = _ from toNat_encodeR 0x6B0#11 31 0#6 rn 0]
  have := rn.isLt
  simp only [BitVec.toNat_ofNat]; omega

theorem bCond (imm19 : BitVec 19) (cond : Cond) : Statement (.bCond imm19 cond) := by
  refine classify_of_range 0x2a0 8 .bCond _ (by decide) ?_
  rw [show (encode (.bCond imm19 cond)).toNat = _ from toNat_encodeCBc 0x54#8 imm19 cond]
  have := imm19.isLt; have := (codeOfCond cond).isLt
  simp only [BitVec.toNat_ofNat]; omega

theorem cbz (rd : Reg) (imm19 : BitVec 19) : Statement (.cbz rd imm19) := by
  refine classify_of_range 0x5a0 8 .cbz _ (by decide) ?_
  rw [show (encode (.cbz rd imm19)).toNat = _ from toNat_encodeCB 0xB4#8 imm19 rd]
  have := rd.isLt; have := imm19.isLt
  simp only [BitVec.toNat_ofNat]; omega

theorem cbnz (rd : Reg) (imm19 : BitVec 19) : Statement (.cbnz rd imm19) := by
  refine classify_of_range 0x5a8 8 .cbnz _ (by decide) ?_
  rw [show (encode (.cbnz rd imm19)).toNat = _ from toNat_encodeCB 0xB5#8 imm19 rd]
  have := rd.isLt; have := imm19.isLt
  simp only [BitVec.toNat_ofNat]; omega

theorem movz (rd : Reg) (imm16 : BitVec 16) (hw : BitVec 2) : Statement (.movz rd imm16 hw) := by
  refine classify_of_range 0x694 4 .movz _ (by decide) ?_
  rw [show (encode (.movz rd imm16 hw)).toNat = _ from toNat_encodeIW 0b110100101#9 hw imm16 rd]
  have := rd.isLt; have := imm16.isLt; have := hw.isLt
  simp only [BitVec.toNat_ofNat]; omega

theorem stur (rd rn : Reg) (imm9 : BitVec 9) : Statement (.stur rd rn imm9) := by
  refine classify_of_range 0x7c0 1 .stur _ (by decide) ?_
  rw [show (encode (.stur rd rn imm9)).toNat = _ from toNat_encodeD 0x7C0#11 imm9 rn rd]
  have := rd.isLt; have := rn.isLt; have := imm9.isLt
  simp only [BitVec.toNat_ofNat]; omega

theorem sturb (rd rn : Reg) (imm9 : BitVec 9) : Statement (.sturb rd rn imm9) := by
  refine classify_of_range 0x1c0 1 .sturb _ (by decide) ?_
  rw [show (encode (.sturb rd rn imm9)).toNat = _ from toNat_encodeD 0x1C0#11 imm9 rn rd]
  have := rd.isLt; have := rn.isLt; have := imm9.isLt
  simp only [BitVec.toNat_ofNat]; omega

theorem sturh (rd rn : Reg) (imm9 : BitVec 9) : Statement (.sturh rd rn imm9) := by
  refine classify_of_range 0x3c0 1 .sturh _ (by decide) ?_
  rw [show (encode (.sturh rd rn imm9)).toNat = _ from toNat_encodeD 0x3C0#11 imm9 rn rd]
  have := rd.isLt; have := rn.isLt; have := imm9.isLt
  simp only [BitVec.toNat_ofNat]; omega

theorem ldur (rd rn : Reg) (imm9 : BitVec 9) : Statement (.ldur rd rn imm9) := by
  refine classify_of_range 0x7c2 1 .ldur _ (by decide) ?_
  rw [show (encode (.ldur rd rn imm9)).toNat = _ from toNat_encodeD 0x7C2#11 imm9 rn rd]
  have := rd.isLt; have := rn.isLt; have := imm9.isLt
  simp only [BitVec.toNat_ofNat]; omega

theorem ldurb (rd rn : Reg) (imm9 : BitVec 9) : Statement (.ldurb rd rn imm9) := by
  refine classify_of_range 0x1c2 1 .ldurb _ (by decide) ?_
  rw [show (encode (.ldurb rd rn imm9)).toNat = _ from toNat_encodeD 0x1C2#11 imm9 rn rd]
  have := rd.isLt; have := rn.isLt; have := imm9.isLt
  simp only [BitVec.toNat_ofNat]; omega

theorem ldurh (rd rn : Reg) (imm9 : BitVec 9) : Statement (.ldurh rd rn imm9) := by
  refine classify_of_range 0x3c2 1 .ldurh _ (by decide) ?_
  rw [show (encode (.ldurh rd rn imm9)).toNat = _ from toNat_encodeD 0x3C2#11 imm9 rn rd]
  have := rd.isLt; have := rn.isLt; have := imm9.isLt
  simp only [BitVec.toNat_ofNat]; omega

end Sys2Proof.Laws.EncodedClass
end

