-- ==== Sys2Proof/Laws/Results.lean ====
section
/-! SUPPORT. Said once, what the endings of handlers do: a register result, a pc result, a store result, with the whole
frame of each. -/

namespace Sys2Proof.Machine

/-- Writing Rd and the flags and advancing the pc is a register result. -/
theorem registerResult_flags (s : State) (rd : Reg) (v : Word) (f : Flags) :
    RegisterResult s (advancePc (writeFlags f (writeReg rd v s))) rd v f [] where
  written h := by simp [writeReg_self, h]
  discarded h := by subst h; intro j; simp
  others j h := by simp [writeReg_other, h]
  flags := by simp
  runBit := by simp
  memory _ := by simp
  stepped := ⟨by simp, by simp, by simp, by simp⟩

/-- Writing Rd and advancing the pc is a register result that keeps the flags. -/
theorem registerResult_noFlags (s : State) (rd : Reg) (v : Word) :
    RegisterResult s (advancePc (writeReg rd v s)) rd v s.next.flags [] where
  written h := by simp [writeReg_self, h]
  discarded h := by subst h; intro j; simp
  others j h := by simp [writeReg_other, h]
  flags := by simp
  runBit := by simp
  memory _ := by simp
  stepped := ⟨by simp, by simp, by simp, by simp⟩

/-- Writing Rd after port events and advancing the pc: `u` is `s` with the events recorded. -/
theorem registerResult_events (s u : State) (rd : Reg) (v : Word) (events : List PortEvent)
    (hu : u = { s with trace := s.trace ++ events }) :
    RegisterResult s (advancePc (writeReg rd v u)) rd v s.next.flags events := by
  subst hu
  exact {
    written := fun h => by simp [writeReg_self, h]
    discarded := fun h => by subst h; intro j; simp
    others := fun j h => by simp [writeReg_other, h]
    flags := by simp
    runBit := by simp
    memory := fun _ => by simp
    stepped := ⟨by simp, by simp, by simp, by simp⟩ }

/-- Setting the pc after port events is a pc result. -/
theorem pcResult (s u : State) (pc : Word) (events : List PortEvent) (hu : u = { s with trace := s.trace ++ events }) :
    PcResult s (writePc pc u) pc events := by
  subst hu
  exact ⟨fun _ => rfl, rfl, rfl, fun _ => rfl, ⟨rfl, rfl, rfl, rfl⟩⟩

/-- A store that changed memory and the record alone, advancing the pc, is a store result. -/
theorem storeResult (s u : State) (a : Word) (n : Nat) (events : List PortEvent)
    (hu : u = { s with mem := u.mem, trace := s.trace ++ events }) (hm : MemoryKeptOutside s u a n) :
    StoreResult s (advancePc u) a n events := by
  rw [hu]
  exact ⟨fun _ => rfl, rfl, rfl, fun b hb => hm b hb, ⟨rfl, rfl, rfl, rfl⟩⟩

/-- What is left of the three loads once the checks are made: the state with its commands recorded. -/
theorem loadDoubleword_state (a : Word) (s : State) : (loadDoubleword a s).2 =
    { s with trace := s.trace ++ [.load a (s.mem.readWord a), .load (a + 4) (s.mem.readWord (a + 4))] } := by
  simp [loadDoubleword, loadWord, emit]

theorem loadByte_state (a : Word) (s : State) : (loadByte a s).2 =
    { s with trace := s.trace ++ [.load (wordAddress a) (s.mem.readWord (wordAddress a))] } := rfl

theorem loadHalfword_state (a : Word) (s : State) : (loadHalfword a s).2 =
    { s with trace := (loadHalfword a s).2.trace } := by
  unfold loadHalfword; split <;> rfl

theorem storeDoubleword_state (a v : Word) (s : State) : storeDoubleword a v s =
    { s with mem := (storeDoubleword a v s).mem, trace := (storeDoubleword a v s).trace } := rfl

theorem storeByte_state (a : Word) (v : Byte) (s : State) : storeByte a v s =
    { s with mem := (storeByte a v s).mem, trace := (storeByte a v s).trace } := rfl

theorem storeHalfword_state (a : Word) (h : BitVec 16) (s : State) : storeHalfword a h s =
    { s with mem := (storeHalfword a h s).mem, trace := (storeHalfword a h s).trace } := by
  unfold storeHalfword; split <;> rfl

end Sys2Proof.Machine
end

