-- ==== Sys2Proof/Tests/Slice0.lean ====
section
/-! SUPPORT. The model's own tests. Expected values are those of spec/95_test_vectors.md (its table is named in each
section) or of the rule named; each step test runs one step. -/

namespace Sys2Proof.Tests

open Sys2Proof.Machine Sys2Proof.Claims

/-! ## Ill-formed terms are refused, one for each check of WellFormed -/

theorem test_illformed_lsl_a64 : Instr.wellFormed .a64 (.lsl 1 2 4 63) = false := by decide
theorem test_illformed_lsr_a64 : Instr.wellFormed .a64 (.lsr 1 2 4 62) = false := by decide
theorem test_illformed_lsl_literal : Instr.wellFormed .literal (.lsl 1 2 31 0) = false := by decide
theorem test_illformed_lsr_literal : Instr.wellFormed .literal (.lsr 1 2 32 0) = false := by decide
theorem test_illformed_recognised_condition : Instr.wellFormed .a64 (.bCond 4 (.unrecognised 0b1101)) = false := by decide

/-! ## Decoding: a word of the spec for every constructor (95_test_vectors.md 2.1 to 2.6) -/

theorem test_decode_hlt : decode .a64 0xD4400020 = .ok .hlt := by decide
theorem test_decode_addsReg : decode .a64 0xAB030041 = .ok (.addsReg 1 2 3) := by decide
theorem test_decode_addsImm : decode .a64 0xB1400441 = .ok (.addsImm 1 2 1 .lsl12) := by decide
theorem test_decode_subsReg : decode .a64 0xEB03005F = .ok (.subsReg 31 2 3) := by decide
theorem test_decode_subsImm : decode .a64 0xF100285F = .ok (.subsImm 31 2 10 .lsl0) := by decide
theorem test_decode_adcs : decode .a64 0xBA030041 = .ok (.adcs 1 2 3) := by decide
theorem test_decode_addReg : decode .a64 0x8B03005F = .ok (.addReg 31 2 3) := by decide
theorem test_decode_addImm : decode .a64 0x91404041 = .ok (.addImm 1 2 0x10 .lsl12) := by decide
theorem test_decode_subReg : decode .a64 0xCB030041 = .ok (.subReg 1 2 3) := by decide
theorem test_decode_subImm : decode .a64 0xD17FFC41 = .ok (.subImm 1 2 4095 .lsl12) := by decide
theorem test_decode_ands : decode .a64 0xEA03005F = .ok (.ands 31 2 3) := by decide
theorem test_decode_eor : decode .a64 0xCA030041 = .ok (.eor 1 2 3) := by decide
theorem test_decode_orr : decode .a64 0xAA0303E1 = .ok (.orr 1 31 3) := by decide
theorem test_decode_mul : decode .a64 0x9B03FC41 = .ok (.mul 1 2 3) := by decide
theorem test_decode_lsl : decode .a64 0xD37CEC41 = .ok (.lsl 1 2 60 59) := by decide
theorem test_decode_lsr : decode .a64 0xD344FC41 = .ok (.lsr 1 2 4 63) := by decide
theorem test_decode_b : decode .a64 0x17FFFFFF = .ok (.b (-1)) := by decide
theorem test_decode_br : decode .a64 0xD61F00A0 = .ok (.br 5) := by decide
theorem test_decode_bCond : decode .a64 0x54FFFFC0 = .ok (.bCond (-2) .eq) := by decide
theorem test_decode_cbz : decode .a64 0xB4000063 = .ok (.cbz 3 3) := by decide
theorem test_decode_cbnz : decode .a64 0xB5FFFFDF = .ok (.cbnz 31 (-2)) := by decide
theorem test_decode_movz : decode .a64 0xD2A24681 = .ok (.movz 1 0x1234 1) := by decide
theorem test_decode_stur : decode .a64 0xF81F8041 = .ok (.stur 1 2 (-8)) := by decide
theorem test_decode_sturb : decode .a64 0x38003041 = .ok (.sturb 1 2 3) := by decide
theorem test_decode_sturh : decode .a64 0x78002041 = .ok (.sturh 1 2 2) := by decide
theorem test_decode_ldur : decode .a64 0xF85FC041 = .ok (.ldur 1 2 (-4)) := by decide
theorem test_decode_ldurb : decode .a64 0x38500041 = .ok (.ldurb 1 2 (-256)) := by decide
theorem test_decode_ldurh : decode .a64 0x78402041 = .ok (.ldurh 1 2 2) := by decide

/-- All six condition codes of R216, and two that are none (2.4b). -/
theorem test_decode_conditions : [0x54000080, 0x54000081, 0x5400008A, 0x5400008B, 0x5400008C, 0x5400008D, 0x54000082,
    0x5400008E].map (decode .a64) = [.eq, .ne, .ge, .lt, .gt, .le, .unrecognised 2, .unrecognised 14].map
      (fun c => .ok (.bCond 4 c)) := by decide

/-- Words in no row (2.1): the zero word, SVC, ERET, an extended-register ADDS, an ADD immediate with sh = 10. -/
theorem test_decode_unrecognised : [0, 0xD4000001, 0xD69F03E0, 0xAB230041, 0x91800441].map (decode .a64) =
    [0, 0xD4000001, 0xD69F03E0, 0xAB230041, 0x91800441].map (fun w => .error (.unrecognisedOpcode w)) := by decide

/-- The source's literal split of the shift class (R187). -/
theorem test_decode_literal : decode .literal 0xD37FF841 = .ok (.lsl 1 2 63 62) ∧
    decode .literal 0xD35FFC41 = .ok (.lsr 1 2 31 63) := by decide

/-- A word of the assembler, encoded (R106, 2.3, 2.4): MUL and BR with the bits A64 sets where the core reads none. -/
theorem test_encode : [Instr.mul 1 2 3, .br 5, .movz 1 0x1234 0, .b 2].map encode =
    [0x9B037C41, 0xD61F00A0, 0xD2824681, 0x14000002] := by decide

theorem test_decode_bytes : decodeBytes .a64 [0x41, 0x00, 0x03, 0xAB, 0x77] = .ok (.addsReg 1 2 3, [0x77]) ∧
    decodeBytes .a64 [0x41, 0x00, 0x03] = .error (.truncated 3) ∧ decodeTableWord 32 0xD344FC41 = some (.lsr 1 2 4 63) := by
  decide

/-! ## One step: pc 0x1000, the parameters at their defaults unless a test names one -/

/-- Registers with the given values, the others 0. -/
def regsOf (values : List (Reg × Word)) : Vector Word 32 :=
  values.foldl (fun v p => v.set p.1 p.2) (Vector.replicate 32 0)

/-- The base memory of 2.6. -/
def baseMemory : Memory :=
  ((Memory.writeWord ⟨[]⟩ 0x2000 0x11223344).writeWord 0x2004 0x55667788).writeWord 0x2008 0x99AABBCC

def noFlags : Flags := ⟨false, false, false, false⟩
def carrySet : Flags := ⟨false, false, true, false⟩
def lenient : Config := { Config.default with alignPolicy := .bytewise }
def narrow32 : Config := { Config.default with narrowStoreAddr32 := true }
def bounded : Config := { Config.default with mapped := [⟨0, 0x8000⟩] }
def literal : Config := { Config.default with shiftReading := .literal }
def exactCarry : Config := { Config.default with adcsCarry := .exact }

/-- A state at pc 0x1000 with the given registers, flags and parameters, and the base memory. -/
def state (c : Config) (f : Flags) (values : List (Reg × Word)) : State :=
  { State.reset with
    config := c
    current := ⟨regsOf values, 0x1000, f⟩
    next := ⟨regsOf values, 0x1000, f⟩
    mem := baseMemory }

/-- One step of that state with the word at its pc. -/
def runWith (c : Config) (f : Flags) (values : List (Reg × Word)) (w : Nat) : Host.Outcome State Fault Refusal :=
  step ((state c f values).withFetchWord 32 w)

def run (values : List (Reg × Word)) (w : Nat) : Host.Outcome State Fault Refusal :=
  runWith Config.default noFlags values w

def after : Host.Outcome State Fault Refusal → Option State
  | .next t => some t
  | .fault _ => none
  | .refused _ => none

/-- X1 and the flags after the step. -/
def result (o : Host.Outcome State Fault Refusal) : Option (Word × Flags) :=
  (after o).map fun t => (t.current.entry 1, t.current.flags)

def x1 (o : Host.Outcome State Fault Refusal) : Option Word := (after o).map fun t => t.current.entry 1
def pcOf (o : Host.Outcome State Fault Refusal) : Option Word := (after o).map fun t => t.current.pc
def wordAt (a : Word) (o : Host.Outcome State Fault Refusal) : Option Word32 := (after o).map fun t => t.mem.readWord a
def faultOf : Host.Outcome State Fault Refusal → Option Fault
  | .fault f => some f
  | .next _ => none
  | .refused _ => none

def diags (o : Host.Outcome State Fault Refusal) : Option (List PortEvent) :=
  (after o).map fun t => t.trace.filter PortEvent.isDiag

/-! ### 2.1 System and decode -/

theorem test_hlt : ((after (runWith Config.default ⟨true, false, false, false⟩ [(1, 7)] 0xD4400000)).map fun t =>
    (t.runBit, t.current.pc, t.current.entry 1, t.current.flags.z)) = some (false, 0x1004, 7, true) := by decide
theorem test_unknown_opcode : (diags (run [] 0), pcOf (run [] 0)) = (some [.diag .unknownOpcode], some 0x1004) := by decide
theorem test_run_ended : step { State.reset with runBit := false } = .refused .runEnded := rfl

/-! ### 2.2 Arithmetic -/

theorem test_adds_carry : result (run [(2, 0xFFFFFFFFFFFFFFFF), (3, 1)] 0xAB030041) = some (0, ⟨true, false, true, false⟩) := by
  decide
theorem test_adds_overflow : result (run [(2, 0x7FFFFFFFFFFFFFFF), (3, 1)] 0xAB030041) =
    some (0x8000000000000000, ⟨false, true, false, true⟩) := by decide
theorem test_adds_imm_shifted : x1 (run [(2, 1)] 0xB1400441) = some 0x1001 := by decide
theorem test_adds_imm_max : result (run [(2, 1)] 0xB13FFC41) = some (0x1000, noFlags) := by decide
theorem test_subs_borrow : result (run [(3, 1)] 0xEB030041) = some (0xFFFFFFFFFFFFFFFF, ⟨false, true, false, false⟩) := by decide
theorem test_subs_overflow : result (run [(2, 0x8000000000000000), (3, 1)] 0xEB030041) =
    some (0x7FFFFFFFFFFFFFFF, ⟨false, false, true, true⟩) := by decide
theorem test_subs_imm : result (run [(2, 2)] 0xF1000441) = some (1, ⟨false, false, true, false⟩) := by decide
theorem test_cmp_imm : ((after (run [(2, 3)] 0xF100285F)).map fun t => (t.current.registers, t.current.flags)) =
    some (regsOf [(2, 3)], ⟨false, true, false, false⟩) := by decide
theorem test_adcs_doc : result (runWith Config.default carrySet [(2, 5), (3, 0xFFFFFFFFFFFFFFFF)] 0xBA030041) =
    some (5, ⟨false, false, false, false⟩) := by decide
theorem test_adcs_exact : result (runWith exactCarry carrySet [(2, 5), (3, 0xFFFFFFFFFFFFFFFF)] 0xBA030041) =
    some (5, ⟨false, false, true, false⟩) := by decide
theorem test_add_keeps_flags : result (runWith Config.default ⟨true, false, true, false⟩ [(2, 0xFFFFFFFFFFFFFFFF), (3, 1)]
    0x8B030041) = some (0, ⟨true, false, true, false⟩) := by decide
theorem test_add_to_xzr : ((after (run [(2, 5), (3, 6)] 0x8B03005F)).map fun t => t.current.registers) =
    some (regsOf [(2, 5), (3, 6)]) := by decide
theorem test_add_imm : x1 (run [(2, 5)] 0x91404041) = some 0x10005 := by decide
theorem test_sub : result (run [(3, 1)] 0xCB030041) = some (0xFFFFFFFFFFFFFFFF, noFlags) := by decide
theorem test_sub_imm : x1 (run [] 0xD17FFC41) = some 0xFFFFFFFFFF001000 := by decide

/-! ### 2.3 Logical, multiply and shift -/

theorem test_ands : result (runWith Config.default ⟨false, false, true, true⟩ [(2, 0xF0), (3, 0x0F)] 0xEA030041) =
    some (0, ⟨true, false, true, true⟩) := by decide
theorem test_ands_negative : result (run [(2, 0x8000000000000001), (3, 0x8000000000000000)] 0xEA030041) =
    some (0x8000000000000000, ⟨false, true, false, false⟩) := by decide
theorem test_eor : result (runWith Config.default ⟨true, false, false, false⟩ [(2, 0xFF00), (3, 0x0FF0)] 0xCA030041) =
    some (0xF0F0, ⟨true, false, false, false⟩) := by decide
theorem test_orr : x1 (run [(2, 0xFF00), (3, 0x0FF0)] 0xAA030041) = some 0xFFF0 := by decide
theorem test_mul_signed : x1 (run [(2, 0xFFFFFFFFFFFFFFFD), (3, 5)] 0x9B037C41) = some 0xFFFFFFFFFFFFFFF1 := by decide
theorem test_mul_wraps : x1 (run [(2, 0x8000000000000001), (3, 3)] 0x9B037C41) = some 0x8000000000000003 := by decide
theorem test_lsl : result (run [(2, 0x8000000000000001)] 0xD3410041) =
    some (0x8000000000000000, ⟨false, true, false, false⟩) := by decide
theorem test_lsl_literal : x1 (runWith literal noFlags [(2, 0x8000000000000001)] 0xD37CEC41) = some 8 := by decide
theorem test_lsr : result (runWith Config.default ⟨false, false, true, true⟩ [(2, 1)] 0xD341FC41) =
    some (0, ⟨true, false, true, true⟩) := by decide
theorem test_lsr_literal : x1 (runWith literal noFlags [(2, 0x8000000000000001)] 0xD344FC41) = some 1 := by decide

/-! ### 2.4 Control transfer and 2.5 Move -/

theorem test_b_back : pcOf (run [] 0x17FFFFFF) = some 0xFFC := by decide
theorem test_b_far : pcOf (run [] 0x15FFFFFF) = some 0x8000FFC := by decide
theorem test_br_misaligned : pcOf (run [(5, 0x2002)] 0xD61F00A0) = some 0x2002 := by decide
theorem test_br_xzr : pcOf (run [] 0xD61F03E0) = some 0 := by decide
theorem test_ge_ignores_v : pcOf (runWith Config.default ⟨false, true, false, true⟩ [] 0x5400008A) = some 0x1004 := by decide
theorem test_le_taken : pcOf (runWith Config.default ⟨false, true, false, false⟩ [] 0x5400008D) = some 0x1010 := by decide
theorem test_unknown_cond : diags (run [] 0x5400008E) = some [.diag .unknownCond] := by decide
theorem test_cbz_all_bits : pcOf (run [(3, 0x8000000000000000)] 0xB4000063) = some 0x1004 := by decide
theorem test_cbz_taken : pcOf (run [] 0xB47FFFE3) = some 0x100FFC := by decide
theorem test_cbnz_taken : pcOf (run [(3, 5)] 0xB5FFFFC3) = some 0xFF8 := by decide
theorem test_cbnz_xzr : pcOf (run [] 0xB5FFFFDF) = some 0x1004 := by decide
theorem test_movz : x1 (run [(1, 0xFFFFFFFFFFFFFFFF)] 0xD29FFFE1) = some 0xFFFF := by decide
theorem test_movz_hw : (x1 (run [] 0xD2A24681), diags (run [] 0xD2A24681)) = (some 0x1234, some [.diag .movzHwNonzero]) := by
  decide

/-! ### 2.6 Loads and stores -/

theorem test_stur : (fun o => (wordAt 0x2000 o, wordAt 0x2004 o)) (run [(1, 0xCAFEBABEDEADBEEF), (2, 0x2008)] 0xF81F8041) =
    (some 0xDEADBEEF, some 0xCAFEBABE) := by decide
theorem test_stur_bytewise : (fun o => (wordAt 0x2000 o, wordAt 0x2004 o, wordAt 0x2008 o))
    (runWith lenient noFlags [(1, 0x0102030405060708), (2, 0x2000)] 0xF8001041) =
    (some 0x06070844, some 0x02030405, some 0x99AABB01) := by decide
theorem test_sturb : wordAt 0x2000 (run [(1, 0xFFAB), (2, 0x2000)] 0x38003041) = some 0xAB223344 := by decide
theorem test_sturb_narrow32 : wordAt 0x2000 (runWith narrow32 noFlags [(1, 0xAB), (2, 0x100002000)] 0x38000041) =
    some 0x112233AB := by decide
theorem test_sturh_lane1 : wordAt 0x2000 (run [(1, 0xBEEF), (2, 0x2000)] 0x78001041) = some 0x11BEEF44 := by decide
theorem test_sturh_crossing : (fun o => (wordAt 0x2000 o, wordAt 0x2004 o))
    (runWith lenient noFlags [(1, 0xBEEF), (2, 0x2000)] 0x78003041) = (some 0xEF223344, some 0x556677BE) := by decide
theorem test_ldur : x1 (run [(2, 0x2004)] 0xF85FC041) = some 0x5566778811223344 := by decide
theorem test_ldur_base_is_destination : x1 (run [(1, 0x2000)] 0xF8400021) = some 0x5566778811223344 := by decide
theorem test_ldurb : x1 (run [(1, 0xFFFFFFFFFFFFFFFF), (2, 0x2000)] 0x38401041) = some 0x33 := by decide
theorem test_ldurb_negative_offset : x1 (run [(2, 0x2100)] 0x38500041) = some 0x44 := by decide
theorem test_ldurh : x1 (run [(2, 0x2000)] 0x78401041) = some 0x2233 := by decide
theorem test_ldurh_crossing : x1 (runWith lenient noFlags [(2, 0x2000)] 0x78403041) = some 0x8811 := by decide

/-! ### 2.7 Faults and their order -/

theorem test_fault_misaligned_data : faultOf (run [(1, 0x0102030405060708), (2, 0x2000)] 0xF8001041) =
    some (.misalignedData 0x1000 0x2001) := by decide
theorem test_fault_crossing_halfword : faultOf (run [(2, 0x2000)] 0x78403041) = some (.misalignedData 0x1000 0x2003) := by decide
theorem test_fault_second_word_unmapped : faultOf (runWith bounded noFlags [(2, 0x7FFC)] 0xF8000041) =
    some (.unmappedData 0x1000 0x7FFC) := by decide
theorem test_fault_alignment_first : faultOf (runWith bounded noFlags [(2, 0x7FFC)] 0xF8001041) =
    some (.misalignedData 0x1000 0x7FFD) := by decide

/-- A state about to fetch at `pc`, with the addresses below 0x8000 mapped. -/
def atPc (pc : Word) : State :=
  { State.reset with config := bounded, current := { State.reset.current with pc := pc } }

theorem test_fault_fetch : (faultOf (step (atPc 0x9000)), faultOf (step (atPc 0x9002))) =
    (some (.unmappedFetch 0x9000), some (.misalignedFetch 0x9002)) := by decide

/-- pc + 4 wraps to 0 (D13). -/
theorem test_pc_wraps : pcOf (step (State.withFetchWord { State.reset with
    current := { State.reset.current with pc := 0xFFFFFFFFFFFFFFFC } } 32 0xD2800021)) = some 0 := by decide

/-- Writing the byte an unlisted address reads as removes the entry (assumption log 5). -/
theorem test_memory_canonical : ((Memory.writeByte ⟨[]⟩ 5 7).writeByte 5 0).cells = [] := by decide

/-! ## Witnesses: for each statement with hypotheses, a state and operands that meet all of them -/

/-- X1 = 0xBEEF, X2 = 0x2000, X3 = 1; pc 0x1000; the base memory of 2.6. -/
def sample (c : Config) : State := state c noFlags [(1, 0xBEEF), (2, 0x2000), (3, 1)]

/-- The same with another address in X2. -/
def based (c : Config) (address : Word) : State := state c noFlags [(1, 0xBEEF), (2, address)]

/-- The sample with a word at its pc. -/
def loaded (c : Config) (w : Nat) : State := (sample c).withFetchWord 32 w

theorem exists_next (o : Host.Outcome State Fault Refusal) (h : (after o).isSome = true) : ∃ t, o = .next t := by
  cases o with
  | next t => exact ⟨t, rfl⟩
  | fault f => exact absurd h (by simp [after])
  | refused r => exact absurd h (by simp [after])

theorem exists_fault (o : Host.Outcome State Fault Refusal) (f : Fault) (h : faultOf o = some f) : o = .fault f := by
  cases o with
  | next t => exact absurd h (by simp [faultOf])
  | fault g => exact congrArg _ (Option.some.inj h)
  | refused r => exact absurd h (by simp [faultOf])

theorem isMapped_default (a : Word) : isMapped Config.default a = true := by
  simp only [isMapped, Config.default, List.any_cons, List.any_nil, Bool.or_false, Region.holds, Bool.and_eq_true,
    decide_eq_true_eq]
  exact ⟨Nat.zero_le _, by rw [Nat.zero_add]; exact BitVec.isLt _⟩

theorem bytesMapped_default (a : Word) (n : Nat) : BytesMapped Config.default a n := fun _ _ => isMapped_default _

theorem witness_EncodeThenDecodeGivesTheInstruction :
    Instr.wellFormed .a64 (.lsl 31 31 63 62) = true ∧ Instr.wellFormed .a64 (.lsr 0 31 0 63) = true ∧
    Instr.wellFormed .literal (.lsl 1 2 32 63) = true ∧ Instr.wellFormed .literal (.lsr 1 2 31 0) = true ∧
    Instr.wellFormed .a64 (.bCond 0x40000 (.unrecognised 0b1111)) = true := by decide
theorem witness_DecodedInstructionKeepsEveryReadBit : decode .literal 0xD35FFC41 = .ok (.lsr 1 2 31 63) := by decide
theorem witness_UnreadBitsAreIgnored : decode .a64 0x9B03FC41 = .ok (.mul 1 2 3) ∧
    (0x9B03FC41 : Word32) &&& readBits (.mul 1 2 3) = 0x9B030041 &&& readBits (.mul 1 2 3) := by decide
theorem witness_DecodeSucceedsExactlyOnTheOpcodeTable : InTable 0x17FFFFFF ∧ ¬ InTable 0x18000000 ∧ ¬ InTable 0xD503201F := by
  unfold InTable; decide
theorem witness_LoadStoreOffsetIsSignExtendedField : (0 < 64 ∧ 8 < 64 ∧ 63 < 64) ∧
    off9 (fieldImm9 0x38500041) = 0xFFFFFFFFFFFFFF00 ∧ off9 (fieldImm9 0x380FF041) = 0xFF := by decide
theorem witness_BranchOffsetRoundTrip :
    ((-(2 ^ 20) : Int) % 4 = 0 ∧ (2 ^ 20 - 4 : Int) % 4 = 0) ∧ ((-(2 ^ 27) : Int) % 4 = 0 ∧ (2 ^ 27 - 4 : Int) % 4 = 0) := by
  decide
theorem witness_ZeroRegisterReadsZeroAndDiscardsWrites : (0 : Reg) ≠ xzr ∧ (30 : Reg) ≠ xzr ∧ (31 : Reg) ≠ 30 := by decide

/-- For the statements about `exec i s = .next t`: an arithmetic result, a store, a load, a branch, HLT. -/
theorem witness_exec_next : (∃ t, exec (.addReg 1 2 3) (sample Config.default) = .next t) ∧
    (∃ t, exec (.stur 1 2 0) (sample Config.default) = .next t) ∧
    (∃ t, exec (.ldurh 1 2 2) (sample Config.default) = .next t) ∧
    (∃ t, exec (.bCond 4 .ne) (sample Config.default) = .next t) ∧ ∃ t, exec .hlt (sample Config.default) = .next t :=
  ⟨exists_next _ (by decide), exists_next _ (by decide), exists_next _ (by decide), exists_next _ (by decide),
    exists_next _ (by decide)⟩
theorem witness_HandlersWriteOnlyNext : ∃ t, exec (.stur 1 2 0) (sample Config.default) = .next t :=
  witness_exec_next.2.1
theorem witness_HandlersReadOnlyCurrent :
    exec (.ldur 1 2 1) (sample Config.default) = .fault (.misalignedData 0x1000 0x2001) ∧
    ∃ t, exec (.addReg 1 2 3) (sample Config.default) = .next t :=
  ⟨exists_fault _ _ (by decide), witness_exec_next.1⟩
theorem witness_NextBufferAndTraceAreUnobservable :
    step (atPc 0x9000) = .fault (.unmappedFetch 0x9000) ∧
    step { sample Config.default with runBit := false } = .refused .runEnded ∧
    ∃ t, step (loaded Config.default 0xD2A24681) = .next t :=
  ⟨exists_fault _ _ (by decide), rfl, exists_next _ (by decide)⟩
theorem witness_StepRunsTheDecodedInstruction :
    (loaded Config.default 0x8B030041).runBit = true ∧
    AlignmentAllows Config.default ((loaded Config.default 0x8B030041).current.pc.toNat % 4 = 0) ∧
    BytesMapped Config.default (loaded Config.default 0x8B030041).current.pc 4 ∧
    decode .a64 ((loaded Config.default 0x8B030041).mem.readWord 0x1000) = .ok (.addReg 1 2 3) :=
  ⟨rfl, .inr (by decide), bytesMapped_default _ _, by decide⟩
theorem witness_StepEndsCommitted : ∃ t, step (loaded Config.default 0xF8000041) = .next t := exists_next _ (by decide)
theorem witness_UnrecognisedWordAdvancesPcOnly :
    (loaded Config.default 0xD503201F).runBit = true ∧
    AlignmentAllows Config.default ((loaded Config.default 0xD503201F).current.pc.toNat % 4 = 0) ∧
    BytesMapped Config.default (loaded Config.default 0xD503201F).current.pc 4 ∧
    ¬ InTable ((loaded Config.default 0xD503201F).mem.readWord (loaded Config.default 0xD503201F).current.pc) := by
  refine ⟨rfl, .inr (by decide), bytesMapped_default _ _, ?_⟩
  rw [show (loaded Config.default 0xD503201F).mem.readWord (loaded Config.default 0xD503201F).current.pc = 0xD503201F by decide]
  exact witness_DecodeSucceedsExactlyOnTheOpcodeTable.2.2
theorem witness_NoStepOnceRunBitIsFalse : ({ sample Config.default with runBit := false } : State).runBit = false := rfl
theorem witness_HltClearsRunBitAndEndsTheRun : (∃ t, exec (.addReg 1 2 3) (sample Config.default) = .next t) ∧
    Instr.addReg 1 2 3 ≠ .hlt := ⟨witness_exec_next.1, by decide⟩
theorem witness_RunBitIsFalseAfterExactlyHlt : ∃ t, step (loaded Config.default 0xD4400000) = .next t :=
  exists_next _ (by decide)
theorem witness_NonBranchingHandlersAdvancePcByFour : (∃ t, exec (.stur 1 2 0) (sample Config.default) = .next t) ∧
    isBranch (.stur 1 2 0) = false := ⟨witness_exec_next.2.1, rfl⟩
theorem witness_PcStaysAlignedUnlessBr : (∃ t, exec (.bCond 4 .ne) (sample Config.default) = .next t) ∧
    (∀ rn, Instr.bCond 4 .ne ≠ .br rn) ∧ (sample Config.default).current.pc.toNat % 4 = 0 :=
  ⟨witness_exec_next.2.2.2.1, by decide, by decide⟩
theorem witness_OnlyTheDestinationRegisterChanges : ∃ t, exec (.addReg 1 2 3) (sample Config.default) = .next t ∧
    t.next.entry 1 ≠ (sample Config.default).next.entry 1 := ⟨_, rfl, by decide⟩

/-- One witness for each part: no flag, Z and N only; ADCS with the same C, B.cond with the same Z and N, and another
instruction with all four flags changed. -/
theorem witness_FlagWritersAndReaders :
    (∃ t, exec (.eor 1 2 3) (sample Config.default) = .next t) ∧ writesAllFlags (.eor 1 2 3) = false ∧
    writesZN (.eor 1 2 3) = false ∧
    (∃ t, exec (.ands 1 2 3) (sample Config.default) = .next t) ∧ writesAllFlags (.ands 1 2 3) = false ∧
    (∃ t, exec (.adcs 1 2 3) (sample Config.default) = .next t) ∧
    (⟨true, true, false, true⟩ : Flags).c = (sample Config.default).current.flags.c ∧
    (∃ t, exec (.bCond 4 .le) (sample Config.default) = .next t) ∧
    ((⟨false, false, true, true⟩ : Flags).z = (sample Config.default).current.flags.z ∧
      (⟨false, false, true, true⟩ : Flags).n = (sample Config.default).current.flags.n) :=
  ⟨⟨_, rfl⟩, rfl, rfl, ⟨_, rfl⟩, rfl, ⟨_, rfl⟩, rfl, ⟨_, rfl⟩, rfl, rfl⟩
theorem witness_OnlyStoresChangeMemory : (∃ t, exec (.stur 1 2 0) (sample Config.default) = .next t) ∧
    dataAccess (sample Config.default) (.stur 1 2 0) = some (0x2000, 8) ∧
    (∃ t, exec (.ldurh 1 2 2) (sample Config.default) = .next t) ∧ isStore (.ldurh 1 2 2) = false :=
  ⟨witness_exec_next.2.1, by decide, witness_exec_next.2.2.1, rfl⟩
theorem witness_PortTrafficOfEachStep : (∃ t, exec (.sturh 1 2 3) (sample lenient) = .next t) ∧
    ∃ t, step (loaded Config.default 0x78001041) = .next t :=
  ⟨exists_next _ (by decide), exists_next _ (by decide)⟩
theorem witness_ResetSetsEveryField : (0 : Nat) < 31 ∧ 30 < 31 := by decide

/-- A valid boot: LDUR X1, [X2, #0] at 0x1000 with X2 = 0x9000, and the addresses below 0x8000 mapped. -/
def sampleBoot : Boot where
  resetPc := 0x1000
  initRegs := (Vector.replicate 31 0).set 2 0x9000
  initMem := [(0x1000, 0x41), (0x1002, 0x40), (0x1003, 0xF8)]

theorem sampleBoot_valid : BootValid bounded sampleBoot where
  memory := by decide
  mapped := by
    intro a h
    have hlisted : a.toNat = 0x1000 ∨ a.toNat = 0x1002 ∨ a.toNat = 0x1003 := by
      by_contra hn
      simp only [not_or] at hn
      refine h ?_
      show readCells a.toNat [(0x1000, 0x41), (0x1002, 0x40), (0x1003, 0xF8)] = unlistedByte
      simp [readCells, Ne.symm hn.1, Ne.symm hn.2.1, Ne.symm hn.2.2]
    show (bounded.mapped.any fun r => Region.holds r a) = true
    simp only [bounded, List.any_cons, List.any_nil, Bool.or_false, Region.holds, Bool.and_eq_true, decide_eq_true_eq]
    omega
  aligned := by decide
  pcMapped := by unfold BytesMapped; decide

theorem witness_ResetMeetsTheInvariant : BootValid bounded sampleBoot ∧
    step (State.resetWith bounded sampleBoot) = .fault (.unmappedData 0x1000 0x9000) :=
  ⟨sampleBoot_valid, exists_fault _ _ (by decide)⟩

theorem invariant_sample : Invariant (loaded Config.default 0x38001041) where
  buffers := rfl
  memory := by decide
  mapped a _ := isMapped_default a

theorem witness_EveryStepKeepsTheInvariant : Invariant (loaded Config.default 0x38001041) ∧
    ∃ t, step (loaded Config.default 0x38001041) = .next t := ⟨invariant_sample, exists_next _ (by decide)⟩

theorem witness_ConditionsCompareSignedWithoutOverflow : (flagsSub 3 5 (3 - 5)).v = false := by decide
theorem witness_AssemblerShiftWordsShiftByTheirAmount : (0 < 64 ∧ 63 < 64) ∧ (1 : Reg) ≠ xzr ∧
    (sample Config.default).config.shiftReading = .a64 := by decide

/-- The first and the last op11 value of a range: of B, of MOVZ, and of the unrecognised ADD immediates (sh = 1x). -/
theorem witness_DecodesAs_DecodesToNone :
    ((0x14000002 : Word32).extractLsb' 21 11 = 0x0A0#11 ∧ (0x17FFFFFF : Word32).extractLsb' 21 11 = 0x0BF#11) ∧
    ((0xD2824681 : Word32).extractLsb' 21 11 = 0x694#11 ∧ (0xD2E24681 : Word32).extractLsb' 21 11 = 0x697#11) ∧
    (0x91800441 : Word32).extractLsb' 21 11 = 0x48C#11 ∧ (0x91FFFFFF : Word32).extractLsb' 21 11 = 0x48F#11 := by decide
theorem witness_ShiftsUnderBothReadings : 0x69A#11 ≤ (0xD341FC41 : Word32).extractLsb' 21 11 ∧
    (0xD37FF841 : Word32).extractLsb' 21 11 ≤ 0x69B#11 := by decide
theorem witness_ConditionalBranchTestsZAndN : (0x5400008E : Word32).extractLsb' 24 8 = 0x54#8 ∧
    0b1110#4 ∉ [0b0000#4, 0b0001#4, 0b1010#4, 0b1011#4, 0b1100#4, 0b1101#4] ∧
    (∀ code, Cond.le ≠ .unrecognised code) ∧ condTrue ⟨true, false, false, false⟩ .le ∧ ¬ condTrue noFlags .le := by
  unfold condTrue; decide

/-- The bytes at and beyond the word written, with the address sums wrapping. -/
theorem witness_WordAccessIsLittleEndian : (0 < 4 ∧ 3 < 4) ∧ 4 ≤ ((2 : Word) - 0xFFFFFFFFFFFFFFFE).toNat := by decide
theorem witness_EffectiveAddresses : Config.default.narrowStoreAddr32 = false ∧ narrow32.narrowStoreAddr32 = true ∧
    (effectiveAddress (based narrow32 0xFFFFFFFF) 2 0).toNat < 2 ^ 32 := by decide

/-- Aligned under `FAULT`, misaligned under `BYTEWISE`, and the last eight bytes of the mapped space. -/
theorem witness_SturStoresEightBytes_LdurLoadsEightBytes :
    (AlignmentAllows Config.default ((effectiveAddress (sample Config.default) 2 4).toNat % 4 = 0) ∧
      BytesMapped Config.default (effectiveAddress (sample Config.default) 2 4) 8) ∧
    (AlignmentAllows lenient ((effectiveAddress (sample lenient) 2 1).toNat % 4 = 0) ∧
      BytesMapped lenient (effectiveAddress (sample lenient) 2 1) 8) ∧
    (AlignmentAllows bounded ((effectiveAddress (based bounded 0x7FF8) 2 0).toNat % 4 = 0) ∧
      BytesMapped bounded (effectiveAddress (based bounded 0x7FF8) 2 0) 8) :=
  ⟨⟨.inr (by decide), bytesMapped_default _ _⟩, ⟨.inl rfl, bytesMapped_default _ _⟩,
    ⟨.inr (by decide), by unfold BytesMapped; decide⟩⟩
theorem witness_SturbStoresOneByte_LdurbLoadsOneByteZeroExtended :
    BytesMapped bounded (wordAddress (narrowStoreAddress (based bounded 0x7FFF) 2 0)) 4 ∧
    BytesMapped bounded (wordAddress (effectiveAddress (based bounded 0x7FFF) 2 0)) 4 := by unfold BytesMapped; decide

/-- Lanes 0 to 2 under `FAULT`, lane 3 under `BYTEWISE`, with one and with two words mapped. -/
theorem witness_SturhStoresTwoBytes_LdurhLoadsTwoBytesZeroExtended :
    (AlignmentAllows bounded (¬ (narrowStoreAddress (based bounded 0x7FFE) 2 0).toNat % 4 = 3) ∧
      BytesMapped bounded (wordAddress (narrowStoreAddress (based bounded 0x7FFE) 2 0)) 4) ∧
    (AlignmentAllows lenient (¬ (narrowStoreAddress (sample lenient) 2 3).toNat % 4 = 3) ∧
      (narrowStoreAddress (sample lenient) 2 3).toNat % 4 = 3 ∧
      BytesMapped lenient (wordAddress (narrowStoreAddress (sample lenient) 2 3)) 8) ∧
    AlignmentAllows bounded (¬ (effectiveAddress (based bounded 0x7FFE) 2 0).toNat % 4 = 3) ∧
    (effectiveAddress (sample lenient) 2 3).toNat % 4 = 3 :=
  ⟨⟨.inr (by decide), by unfold BytesMapped; decide⟩, ⟨.inl rfl, by decide, bytesMapped_default _ _⟩, .inr (by decide),
    by decide⟩

theorem witness_ByteStoreThenLoadRoundTrip : (sample Config.default).next = (sample Config.default).current ∧
    (4 : Reg) ≠ xzr ∧ (sample Config.default).config.narrowStoreAddr32 = false ∧
    (effectiveAddress (sample narrow32) 2 3).toNat < 2 ^ 32 ∧
    (∃ t, exec (.sturb 1 2 3) (sample Config.default) = .next t) ∧ ∃ t, exec (.sturb 1 2 3) (sample narrow32) = .next t :=
  ⟨rfl, by decide, rfl, by decide, exists_next _ (by decide), exists_next _ (by decide)⟩
theorem witness_WideStoreThenLoadRoundTrip : (sample lenient).next = (sample lenient).current ∧ (4 : Reg) ≠ xzr ∧
    (sample lenient).config.narrowStoreAddr32 = false ∧ (∃ t, exec (.stur 1 2 1) (sample lenient) = .next t) ∧
    ∃ t, exec (.sturh 1 2 3) (sample lenient) = .next t :=
  ⟨rfl, by decide, rfl, exists_next _ (by decide), exists_next _ (by decide)⟩

/-- A store, and two later states with its memory, at the pc of its low word and of its high word. -/
theorem witness_StoreIsSeenByLaterFetch : effectiveAddress (based Config.default 0x1004) 2 0 = 0x1004 ∧
    ∃ t, exec (.stur 1 2 0) (based Config.default 0x1004) = .next t ∧
      ({ atPc 0x1004 with mem := t.mem } : State).mem = t.mem ∧ fetchFault { atPc 0x1004 with mem := t.mem } = none ∧
      fetchFault { atPc 0x1008 with mem := t.mem } = none :=
  ⟨by decide, (exists_next (exec (.stur 1 2 0) (based Config.default 0x1004)) (by decide)).imp
    fun _ h => ⟨h, rfl, (by decide : fetchFault (atPc 0x1004) = none), (by decide : fetchFault (atPc 0x1008) = none)⟩⟩
theorem witness_PlacedWordRunsNext : (sample Config.default).runBit = true ∧
    AlignmentAllows Config.default ((sample Config.default).current.pc.toNat % 4 = 0) ∧
    BytesMapped Config.default (sample Config.default).current.pc 4 ∧ decode .a64 0xD4400000 = .ok .hlt :=
  ⟨rfl, .inr (by decide), bytesMapped_default _ _, by decide⟩

/-- One state for each clause: pc 0x9002, pc 0x9000, and the last word mapped. -/
theorem witness_FetchChecksAlignmentThenMapping :
    ((atPc 0x9002).runBit = true ∧ ¬ AlignmentAllows bounded ((atPc 0x9002).current.pc.toNat % 4 = 0)) ∧
    (AlignmentAllows bounded ((atPc 0x9000).current.pc.toNat % 4 = 0) ∧ ¬ BytesMapped bounded (atPc 0x9000).current.pc 4) ∧
    (AlignmentAllows bounded ((atPc 0x7FFC).current.pc.toNat % 4 = 0) ∧ BytesMapped bounded (atPc 0x7FFC).current.pc 4) := by
  unfold AlignmentAllows BytesMapped; decide
/-- The clauses of STUR and LDUR that fault: misaligned, and the second word not mapped. -/
theorem witness_SturStoresEightBytes_LdurLoadsEightBytes_faults :
    ¬ AlignmentAllows bounded ((effectiveAddress (based bounded 0x7FFC) 2 1).toNat % 4 = 0) ∧
    AlignmentAllows bounded ((effectiveAddress (based bounded 0x7FFC) 2 0).toNat % 4 = 0) ∧
    ¬ BytesMapped bounded (effectiveAddress (based bounded 0x7FFC) 2 0) 8 := by
  unfold AlignmentAllows BytesMapped; decide

/-- The addresses below 0x8000 mapped, misaligned accesses done byte by byte. -/
def boundedLenient : Config := { bounded with alignPolicy := .bytewise }

/-- The clauses of the narrow loads and stores that fault, one by one. -/
theorem witness_narrow_loads_and_stores_fault :
    ¬ BytesMapped bounded (wordAddress (effectiveAddress (based bounded 0x8000) 2 0)) 4 ∧
    ¬ BytesMapped bounded (wordAddress (narrowStoreAddress (based bounded 0x8000) 2 0)) 4 ∧
    ¬ AlignmentAllows bounded (¬ (effectiveAddress (based bounded 0x2003) 2 0).toNat % 4 = 3) ∧
    ¬ AlignmentAllows bounded (¬ (narrowStoreAddress (based bounded 0x2003) 2 0).toNat % 4 = 3) ∧
    (AlignmentAllows boundedLenient (¬ (effectiveAddress (based boundedLenient 0x7FFF) 2 0).toNat % 4 = 3) ∧
      ¬ BytesMapped boundedLenient (wordAddress (effectiveAddress (based boundedLenient 0x7FFF) 2 0)) 8) ∧
    AlignmentAllows boundedLenient (¬ (narrowStoreAddress (based boundedLenient 0x8000) 2 0).toNat % 4 = 3) ∧
    ¬ BytesMapped boundedLenient (wordAddress (narrowStoreAddress (based boundedLenient 0x8000) 2 0)) 4 := by
  unfold AlignmentAllows BytesMapped; decide
theorem witness_OnlyLoadsAndStoresFault :
    exec (.ldur 1 2 1) (sample Config.default) = .fault (.misalignedData 0x1000 0x2001) :=
  witness_HandlersReadOnlyCurrent.1
theorem witness_LenientMemoryNeverFaults : LenientMemory lenient ∧ (loaded lenient 0xF8001041).runBit = true ∧
    (loaded lenient 0xF8001041).config = lenient :=
  ⟨⟨isMapped_default, rfl⟩, rfl, rfl⟩

end Sys2Proof.Tests
end

/-! # What a handler does, in one normal form

A handler reads *current*, the parameters and memory (R37), makes its data checks before its first store (R74) and then
writes at most one register, some flags, the pc, `run_bit`, memory and the record of the ports. `effect` computes what
is written as data; `exec_eq` ties it to `exec`, once, and every statement about all instructions is read off it. -/

namespace Sys2Proof.Machine

/-! ## Effects -/

/-- Which flags of *next* a handler writes (R35). -/
inductive FlagWrite where
  | keep
  | zn (r : Word)
  | all (f : Flags)

/-- The flags of *next* after the write. -/
def FlagWrite.apply : FlagWrite → Flags → Flags
  | .keep, f  => f
  | .zn r, f  => setZN r f
  | .all g, _ => g

/-- All that a handler writes: Rd with its value, flags, the pc, `run_bit` (only ever cleared), memory, and what passes
the ports. -/
structure Effect where
  dest   : Option (Reg × Word)
  flags  : FlagWrite
  pc     : Word
  halts  : Bool
  mem    : Memory
  events : List PortEvent

/-- The register write of an effect. -/
def writeDest : Option (Reg × Word) → State → State
  | none, s         => s
  | some (rd, v), s => writeReg rd v s

/-- The state an effect leads to. -/
def Effect.apply (e : Effect) (s : State) : State :=
  writePc e.pc (writeFlags (e.flags.apply s.next.flags) (writeDest e.dest
    { s with runBit := s.runBit && !e.halts, mem := e.mem, trace := s.trace ++ e.events }))

section
variable (e : Effect) (s : State)

@[simp] theorem Effect.apply_config : (e.apply s).config = s.config := by
  unfold Effect.apply; cases e.dest <;> simp [writeDest]
@[simp] theorem Effect.apply_current : (e.apply s).current = s.current := by
  unfold Effect.apply; cases e.dest <;> simp [writeDest]
@[simp] theorem Effect.apply_runBit : (e.apply s).runBit = (s.runBit && !e.halts) := by
  unfold Effect.apply; cases e.dest <;> simp [writeDest]
@[simp] theorem Effect.apply_mem : (e.apply s).mem = e.mem := by
  unfold Effect.apply; cases e.dest <;> simp [writeDest]
@[simp] theorem Effect.apply_trace : (e.apply s).trace = s.trace ++ e.events := by
  unfold Effect.apply; cases e.dest <;> simp [writeDest]
@[simp] theorem Effect.apply_next_pc : (e.apply s).next.pc = e.pc := rfl
@[simp] theorem Effect.apply_next_flags : (e.apply s).next.flags = e.flags.apply s.next.flags := rfl

/-- The stored entries of *next* after an effect: the written one, unless it is entry 31. -/
theorem Effect.apply_next_entry (j : Reg) : (e.apply s).next.entry j =
    match e.dest with
    | some (rd, v) => if rd ≠ xzr ∧ j = rd then v else s.next.entry j
    | none         => s.next.entry j := by
  unfold Effect.apply
  cases e.dest with
  | none => rfl
  | some write => exact writeReg_next_entry write.1 write.2 _ j

end

/-! ## The effect of each instruction -/

/-- A result for Rd, with the pc policy of R34. -/
def Effect.result (s : State) (rd : Reg) (v : Word) (flags : FlagWrite) (events : List PortEvent) : Effect :=
  ⟨some (rd, v), flags, s.current.pc + 4, false, s.mem, events⟩

/-- A sum for Rd and its flags (R141). -/
def Effect.adds (s : State) (rd : Reg) (a b : Word) : Effect := .result s rd (a + b) (.all (flagsAdd a b (a + b))) []

/-- A difference for Rd and its flags (R142). -/
def Effect.subs (s : State) (rd : Reg) (a b : Word) : Effect := .result s rd (a - b) (.all (flagsSub a b (a - b))) []

/-- A result for Rd that sets Z and N (R140). -/
def Effect.resultZN (s : State) (rd : Reg) (v : Word) : Effect := .result s rd v (.zn v) []

/-- A result for Rd that sets no flag. -/
def Effect.value (s : State) (rd : Reg) (v : Word) : Effect := .result s rd v .keep []

/-- The pc alone is written. -/
def Effect.goto (s : State) (pc : Word) : Effect := ⟨none, .keep, pc, false, s.mem, []⟩

/-- A diagnostic, and the pc policy of R34. -/
def Effect.diag (s : State) (k : Diagnostic) : Effect := ⟨none, .keep, s.current.pc + 4, false, s.mem, [.diag k]⟩

/-- Memory, the events of a store, and the pc policy of R34. -/
def Effect.store (s : State) (m : Memory) (events : List PortEvent) : Effect :=
  ⟨none, .keep, s.current.pc + 4, false, m, events⟩

/-- The `load_word` commands of some words, with the words memory `m` returns (R42). -/
def loadsOf (m : Memory) (words : List Word) : List PortEvent := words.map fun a => .load a (m.readWord a)

/-- The `store_word` commands of some words, with the words memory `m` holds after them (R43). -/
def storesOf (m : Memory) (words : List Word) : List PortEvent := words.map fun a => .store a (m.readWord a)

/-- B.cond: taken, not taken, or the diagnostic of an unrecognised code (R215, R216). -/
def bCondEffect (s : State) (imm19 : BitVec 19) (cond : Cond) : Effect :=
  match condHolds s.current.flags cond with
  | some taken => .goto s (branchTarget s taken (off19 imm19))
  | none       => .diag s .unknownCond

/-- What each handler writes, once its checks are made. -/
def effect (s : State) : Instr → Effect
  | .hlt => ⟨none, .keep, s.current.pc + 4, true, s.mem, []⟩
  | .addsReg rd rn rm => .adds s rd (readReg s rn) (readReg s rm)
  | .addsImm rd rn imm12 sh => .adds s rd (readReg s rn) (arithImm imm12 sh)
  | .subsReg rd rn rm => .subs s rd (readReg s rn) (readReg s rm)
  | .subsImm rd rn imm12 sh => .subs s rd (readReg s rn) (arithImm imm12 sh)
  | .adcs rd rn rm =>
    let r := readReg s rn + readReg s rm + carryIn s.current.flags.c
    .result s rd r (.all (flagsAdcs s.config.adcsCarry (readReg s rn) (readReg s rm) s.current.flags.c r)) []
  | .addReg rd rn rm => .value s rd (readReg s rn + readReg s rm)
  | .addImm rd rn imm12 sh => .value s rd (readReg s rn + arithImm imm12 sh)
  | .subReg rd rn rm => .value s rd (readReg s rn - readReg s rm)
  | .subImm rd rn imm12 sh => .value s rd (readReg s rn - arithImm imm12 sh)
  | .ands rd rn rm => .resultZN s rd (readReg s rn &&& readReg s rm)
  | .eor rd rn rm => .value s rd (readReg s rn ^^^ readReg s rm)
  | .orr rd rn rm => .value s rd (readReg s rn ||| readReg s rm)
  | .mul rd rn rm => .value s rd (readReg s rn * readReg s rm)
  | .lsl rd rn immr imms => .resultZN s rd (readReg s rn <<< lslAmount s.config.shiftReading immr imms)
  | .lsr rd rn immr imms => .resultZN s rd (readReg s rn >>> lsrAmount s.config.shiftReading immr imms)
  | .b imm26 => .goto s (s.current.pc + off26 imm26)
  | .br rn => .goto s (readReg s rn)
  | .bCond imm19 cond => bCondEffect s imm19 cond
  | .cbz rd imm19 => .goto s (branchTarget s (readReg s rd == 0) (off19 imm19))
  | .cbnz rd imm19 => .goto s (branchTarget s (readReg s rd != 0) (off19 imm19))
  | .movz rd imm16 hw => .result s rd (movzImm imm16) .keep (if hw = 0 then [] else [.diag .movzHwNonzero])
  | .stur rd rn imm9 =>
    let a := effectiveAddress s rn imm9
    let m := (storeDoubleword a (readReg s rd) s).mem
    .store s m (storesOf m (doublewordWords a))
  | .sturb rd rn imm9 =>
    let a := narrowStoreAddress s rn imm9
    let m := (storeByte a ((readReg s rd).setWidth 8) s).mem
    .store s m (loadsOf s.mem [wordAddress a] ++ storesOf m [wordAddress a])
  | .sturh rd rn imm9 =>
    let a := narrowStoreAddress s rn imm9
    let m := (storeHalfword a ((readReg s rd).setWidth 16) s).mem
    .store s m (loadsOf s.mem (halfwordWords a) ++ storesOf m (halfwordWords a))
  | .ldur rd rn imm9 =>
    let a := effectiveAddress s rn imm9
    .result s rd (s.mem.readWord (a + 4) ++ s.mem.readWord a) .keep (loadsOf s.mem (doublewordWords a))
  | .ldurb rd rn imm9 =>
    let a := effectiveAddress s rn imm9
    .result s rd ((s.mem.readByte a).setWidth 64) .keep (loadsOf s.mem [wordAddress a])
  | .ldurh rd rn imm9 =>
    let a := effectiveAddress s rn imm9
    .result s rd ((s.mem.readByte (a + 1) ++ s.mem.readByte a).setWidth 64) .keep (loadsOf s.mem (halfwordWords a))

/-- What a word of the class UNKNOWN does (R132). -/
def unknownEffect (s : State) : Effect := .diag s .unknownOpcode

/-- The data checks of each instruction: only the loads and stores have any (R65, R66, R305). -/
def accessFault (s : State) : Instr → Option Fault
  | .stur _ rn imm9 | .ldur _ rn imm9 =>
    let a := effectiveAddress s rn imm9
    dataFault s a (!isAligned a) (doublewordWords a)
  | .sturb _ rn imm9 =>
    let a := narrowStoreAddress s rn imm9
    dataFault s a false [wordAddress a]
  | .sturh _ rn imm9 =>
    let a := narrowStoreAddress s rn imm9
    dataFault s a (halfwordCrosses a) (halfwordWords a)
  | .ldurb _ rn imm9 =>
    let a := effectiveAddress s rn imm9
    dataFault s a false [wordAddress a]
  | .ldurh _ rn imm9 =>
    let a := effectiveAddress s rn imm9
    dataFault s a (halfwordCrosses a) (halfwordWords a)
  | _ => none

/-! ## `exec` is its effect -/

theorem writeFlags_self (s : State) : writeFlags s.next.flags s = s := rfl

/-- A result for Rd, with the model's own operations. -/
theorem Effect.apply_result (s : State) (rd : Reg) (v : Word) (flags : FlagWrite) (events : List PortEvent) :
    (Effect.result s rd v flags events).apply s =
      advancePc (writeFlags (flags.apply s.next.flags) (writeReg rd v { s with trace := s.trace ++ events })) := by
  simp [Effect.apply, Effect.result, writeDest, advancePc]

/-- A result that sets no flag. -/
theorem Effect.apply_result_keep (s : State) (rd : Reg) (v : Word) (events : List PortEvent) :
    (Effect.result s rd v .keep events).apply s = advancePc (writeReg rd v { s with trace := s.trace ++ events }) := by
  rw [Effect.apply_result, FlagWrite.apply]
  congr 1
  simpa using writeFlags_self (writeReg rd v { s with trace := s.trace ++ events })

theorem retire_flags (s : State) (rd : Reg) (v : Word) (f : Flags) :
    retire (writeFlags f (writeReg rd v s)) = .next ((Effect.result s rd v (.all f) []).apply s) := by
  simp [retire, Effect.apply_result, FlagWrite.apply]

theorem retire_value (s : State) (rd : Reg) (v : Word) :
    retire (writeReg rd v s) = .next ((Effect.value s rd v).apply s) := by
  simp [retire, Effect.value, Effect.apply_result_keep]

theorem writeSettingZN_eq (s : State) (rd : Reg) (v : Word) :
    writeSettingZN rd v s = .next ((Effect.resultZN s rd v).apply s) := by
  simp [writeSettingZN, retire, Effect.resultZN, Effect.apply_result, FlagWrite.apply]

theorem jump_eq (s : State) (pc : Word) : jump pc s = .next ((Effect.goto s pc).apply s) := by
  simp [jump, Effect.goto, Effect.apply, writeDest, FlagWrite.apply, writeFlags]

theorem retire_emitDiag (s : State) (k : Diagnostic) :
    retire (emitDiag k s) = .next ((Effect.diag s k).apply s) := by
  simp [retire, emitDiag, emit, advancePc, Effect.diag, Effect.apply, writeDest, FlagWrite.apply, writeFlags]

theorem execUnknown_eq (s : State) : execUnknown s = .next ((unknownEffect s).apply s) := retire_emitDiag s _

theorem execHlt_eq (s : State) : execHlt s = .next ((effect s .hlt).apply s) := by
  simp [execHlt, retire, clearRunBit, advancePc, effect, Effect.apply, writeDest, FlagWrite.apply, writeFlags]

theorem execBCond_eq (s : State) (imm19 : BitVec 19) (cond : Cond) :
    execBCond imm19 cond s = .next ((bCondEffect s imm19 cond).apply s) := by
  unfold execBCond bCondEffect
  cases condHolds s.current.flags cond with
  | some taken => exact jump_eq s _
  | none => exact retire_emitDiag s _

theorem diagHw_eq (hw : BitVec 2) (s : State) :
    diagHw hw s = { s with trace := s.trace ++ if hw = 0 then [] else [.diag .movzHwNonzero] } := by
  unfold diagHw
  split <;> simp [emitDiag, emit]

theorem execMovz_eq (s : State) (rd : Reg) (imm16 : BitVec 16) (hw : BitVec 2) :
    execMovz rd imm16 hw s = .next ((effect s (.movz rd imm16 hw)).apply s) := by
  simp only [execMovz, retire, effect, Effect.apply_result_keep, diagHw_eq]

/-- A store that writes memory and the record alone. -/
theorem advancePc_eq_store (s u : State) (events : List PortEvent)
    (hu : u = { s with mem := u.mem, trace := s.trace ++ events }) :
    advancePc u = (Effect.store s u.mem events).apply s := by
  rw [hu]
  simp [Effect.store, Effect.apply, writeDest, FlagWrite.apply, writeFlags, advancePc, writePc]

/-- The commands of a 64-bit store, as those of its two words. -/
theorem storeDoubleword_trace_words (a v : Word) (s : State) :
    (storeDoubleword a v s).trace = s.trace ++ storesOf (storeDoubleword a v s).mem (doublewordWords a) := by
  have hlow (m : Memory) (w : Word32) : (m.writeWord (a + 4#64) w).readWord a = m.readWord a :=
    readWord_writeWord_next m a w
  simp [storeDoubleword, storesOf, doublewordWords, readWord_writeWord, hlow]

/-- The commands of a halfword store, as those of its words: every load before the first store (R252). -/
theorem storeHalfword_trace_words (a : Word) (h : BitVec 16) (s : State) :
    (storeHalfword a h s).trace = s.trace ++
      (loadsOf s.mem (halfwordWords a) ++ storesOf (storeHalfword a h s).mem (halfwordWords a)) := by
  rw [storeHalfword_trace]
  unfold halfwordWords
  split <;> rfl

/-- The commands of a halfword load, as those of its words. -/
theorem loadHalfword_trace_words (a : Word) (s : State) :
    (loadHalfword a s).2.trace = s.trace ++ loadsOf s.mem (halfwordWords a) := by
  rw [loadHalfword_trace]
  unfold halfwordWords
  split <;> rfl

theorem execStur_eq (s : State) (rd rn : Reg) (imm9 : BitVec 9) : execStur rd rn imm9 s =
    guarded (accessFault s (.stur rd rn imm9)) ((effect s (.stur rd rn imm9)).apply s) := by
  have hu := storeDoubleword_state (effectiveAddress s rn imm9) (readReg s rd) s
  rw [storeDoubleword_trace_words] at hu
  exact congrArg (guarded _) (advancePc_eq_store s _ _ hu)

theorem execSturb_eq (s : State) (rd rn : Reg) (imm9 : BitVec 9) : execSturb rd rn imm9 s =
    guarded (accessFault s (.sturb rd rn imm9)) ((effect s (.sturb rd rn imm9)).apply s) := by
  have hu := storeByte_state (narrowStoreAddress s rn imm9) ((readReg s rd).setWidth 8) s
  rw [storeByte_trace] at hu
  exact congrArg (guarded _) (advancePc_eq_store s _ _ hu)

theorem execSturh_eq (s : State) (rd rn : Reg) (imm9 : BitVec 9) : execSturh rd rn imm9 s =
    guarded (accessFault s (.sturh rd rn imm9)) ((effect s (.sturh rd rn imm9)).apply s) := by
  have hu := storeHalfword_state (narrowStoreAddress s rn imm9) ((readReg s rd).setWidth 16) s
  rw [storeHalfword_trace_words] at hu
  exact congrArg (guarded _) (advancePc_eq_store s _ _ hu)

theorem execLdur_eq (s : State) (rd rn : Reg) (imm9 : BitVec 9) : execLdur rd rn imm9 s =
    guarded (accessFault s (.ldur rd rn imm9)) ((effect s (.ldur rd rn imm9)).apply s) := by
  have hvalue (a : Word) : (loadDoubleword a s).1 = s.mem.readWord (a + 4) ++ s.mem.readWord a := rfl
  simp only [effect, Effect.apply_result_keep, execLdur, hvalue, loadDoubleword_state]
  rfl

theorem execLdurb_eq (s : State) (rd rn : Reg) (imm9 : BitVec 9) : execLdurb rd rn imm9 s =
    guarded (accessFault s (.ldurb rd rn imm9)) ((effect s (.ldurb rd rn imm9)).apply s) := by
  simp only [effect, Effect.apply_result_keep, execLdurb, loadByte_value, loadByte_state]
  rfl

theorem execLdurh_eq (s : State) (rd rn : Reg) (imm9 : BitVec 9) : execLdurh rd rn imm9 s =
    guarded (accessFault s (.ldurh rd rn imm9)) ((effect s (.ldurh rd rn imm9)).apply s) := by
  have hstate := loadHalfword_state (effectiveAddress s rn imm9) s
  rw [loadHalfword_trace_words] at hstate
  simp only [effect, Effect.apply_result_keep, execLdurh, loadHalfword_value, hstate]
  rfl

/-- Every handler makes its checks and then does its effect. -/
theorem exec_eq (i : Instr) (s : State) : exec i s = guarded (accessFault s i) ((effect s i).apply s) := by
  cases i with
  | hlt => exact execHlt_eq s
  | addsReg | addsImm | subsReg | subsImm | adcs => exact retire_flags ..
  | addReg | addImm | subReg | subImm | eor | orr | mul => exact retire_value ..
  | ands | lsl | lsr => exact writeSettingZN_eq ..
  | b | br | cbz | cbnz => exact jump_eq ..
  | bCond imm19 cond => exact execBCond_eq s imm19 cond
  | movz rd imm16 hw => exact execMovz_eq s rd imm16 hw
  | stur rd rn imm9 => exact execStur_eq s rd rn imm9
  | sturb rd rn imm9 => exact execSturb_eq s rd rn imm9
  | sturh rd rn imm9 => exact execSturh_eq s rd rn imm9
  | ldur rd rn imm9 => exact execLdur_eq s rd rn imm9
  | ldurb rd rn imm9 => exact execLdurb_eq s rd rn imm9
  | ldurh rd rn imm9 => exact execLdurh_eq s rd rn imm9

/-- What it means that a handler goes on. -/
theorem exec_eq_next_iff (i : Instr) (s t : State) :
    exec i s = .next t ↔ accessFault s i = none ∧ t = (effect s i).apply s := by
  rw [exec_eq, guarded_eq_next_iff]

/-- What it means that a handler faults. -/
theorem exec_eq_fault_iff (i : Instr) (s : State) (f : Fault) : exec i s = .fault f ↔ accessFault s i = some f := by
  rw [exec_eq, guarded_eq_fault_iff]

/-! ## What the effect of each instruction holds

One lemma per field of `Effect`, by cases on the instruction. -/

/-- What holds of a branch and of the diagnostic holds of B.cond. -/
theorem bCondEffect_elim (P : Effect → Prop) (s : State) (imm19 : BitVec 19) (cond : Cond)
    (hgoto : ∀ taken, P (.goto s (branchTarget s taken (off19 imm19)))) (hdiag : P (.diag s .unknownCond)) :
    P (bCondEffect s imm19 cond) := by
  unfold bCondEffect
  cases condHolds s.current.flags cond with
  | some taken => exact hgoto taken
  | none => exact hdiag

/-- The register written is the Rd of R33. -/
theorem effect_dest (s : State) (i : Instr) : (effect s i).dest.map Prod.fst = destination i := by
  cases i with
  | bCond imm19 cond => exact bCondEffect_elim (fun e => e.dest.map Prod.fst = none) s imm19 cond (fun _ => rfl) rfl
  | _ => rfl

/-- Only the writers of R35 write flags. -/
theorem effect_flags_keep (s : State) (i : Instr) (hall : writesAllFlags i = false) (hzn : writesZN i = false) :
    (effect s i).flags = .keep := by
  cases i with
  | bCond imm19 cond => exact bCondEffect_elim (fun e => e.flags = .keep) s imm19 cond (fun _ => rfl) rfl
  | addsReg | addsImm | subsReg | subsImm | adcs => exact absurd hall (by simp [writesAllFlags])
  | ands | lsl | lsr => exact absurd hzn (by simp [writesZN])
  | _ => rfl

/-- The writers of Z and N write no other flag (R35, R140). -/
theorem effect_flags_zn (s : State) (i : Instr) (hzn : writesZN i = true) : ∃ r, (effect s i).flags = .zn r := by
  cases i with
  | ands | lsl | lsr => exact ⟨_, rfl⟩
  | _ => exact absurd hzn (by simp [writesZN])

/-- The pc policy of R34. -/
theorem effect_pc (s : State) (i : Instr) (h : isBranch i = false) : (effect s i).pc = s.current.pc + 4 := by
  cases i with
  | b | br | bCond | cbz | cbnz => exact absurd h (by simp [isBranch])
  | _ => rfl

/-- HLT alone clears `run_bit` (R36, R130). -/
theorem effect_halts_iff (s : State) (i : Instr) : (effect s i).halts = true ↔ i = .hlt := by
  cases i with
  | hlt => exact iff_of_true rfl rfl
  | bCond imm19 cond =>
    have hgoesOn : (bCondEffect s imm19 cond).halts = false :=
      bCondEffect_elim (fun e => e.halts = false) s imm19 cond (fun _ => rfl) rfl
    simp [effect, hgoesOn]
  | _ => exact iff_of_false Bool.false_ne_true nofun

/-! ### Alignment of the pc (R95, R96) -/

theorem aligned_add (a b : Word) (ha : a.toNat % 4 = 0) (hb : b.toNat % 4 = 0) : (a + b).toNat % 4 = 0 := by
  rw [BitVec.toNat_add]; omega

theorem aligned_shiftLeft_two (x : Word) : (x <<< 2).toNat % 4 = 0 := by
  rw [BitVec.toNat_shiftLeft, Nat.shiftLeft_eq]; omega

theorem branchTarget_aligned (s : State) (taken : Bool) (imm19 : BitVec 19) (h : s.current.pc.toNat % 4 = 0) :
    (branchTarget s taken (off19 imm19)).toNat % 4 = 0 := by
  unfold branchTarget
  split
  · exact aligned_add _ _ h (aligned_shiftLeft_two _)
  · exact aligned_add _ _ h rfl

/-- From an aligned pc only BR can lead to a misaligned one (R211, R213). -/
theorem effect_pc_aligned (s : State) (i : Instr) (hbr : ∀ rn, i ≠ .br rn) (h : s.current.pc.toNat % 4 = 0) :
    (effect s i).pc.toNat % 4 = 0 := by
  cases i with
  | b imm26 => exact aligned_add _ _ h (aligned_shiftLeft_two _)
  | br rn => exact absurd rfl (hbr rn)
  | bCond imm19 cond =>
    exact bCondEffect_elim (fun e => e.pc.toNat % 4 = 0) s imm19 cond
      (fun taken => branchTarget_aligned s taken imm19 h) (aligned_add _ _ h rfl)
  | cbz | cbnz => exact branchTarget_aligned s _ _ h
  | _ => exact aligned_add _ _ h rfl

/-! ### The commands on the ports (R72) -/

/-- A record of the ports with these many loads and stores: no fetch, at most one diagnostic, no load after a store. -/
structure PortLog (events : List PortEvent) (traffic : Nat × Nat) : Prop where
  traffic : (events.countP PortEvent.isLoad, events.countP PortEvent.isStore) = traffic
  fetches : events.countP PortEvent.isFetch = 0
  diags   : events.countP PortEvent.isDiag ≤ 1
  ordered : events.Pairwise fun e e' => PortEvent.isStore e = true → PortEvent.isLoad e' = false

theorem portLog_nil : PortLog [] (0, 0) := ⟨rfl, rfl, Nat.zero_le _, .nil⟩

theorem portLog_diag (k : Diagnostic) : PortLog [.diag k] (0, 0) :=
  ⟨rfl, rfl, Nat.le_refl _, List.pairwise_singleton _ _⟩

/-- The read-modify-write of some words, loads before stores; with no word loaded, or none stored, a plain access. -/
theorem portLog_loads_stores (m m' : Memory) (ls ss : List Word) :
    PortLog (loadsOf m ls ++ storesOf m' ss) (ls.length, ss.length) where
  traffic := by simp [loadsOf, storesOf, List.countP_map, Function.comp_def, PortEvent.isLoad, PortEvent.isStore]
  fetches := by simp [loadsOf, storesOf, PortEvent.isFetch]
  diags := by simp [loadsOf, storesOf, List.countP_map, Function.comp_def, PortEvent.isDiag]
  ordered := by simp [loadsOf, storesOf, List.pairwise_append, List.pairwise_map, PortEvent.isLoad, PortEvent.isStore,
    List.pairwise_of_forall]

theorem portLog_loads (m : Memory) (ws : List Word) : PortLog (loadsOf m ws) (ws.length, 0) := by
  simpa [storesOf] using portLog_loads_stores m m ws []

theorem portLog_stores (m : Memory) (ws : List Word) : PortLog (storesOf m ws) (0, ws.length) :=
  portLog_loads_stores m m [] ws

/-- A halfword lies in two words exactly when its address has lane 3 (R252, R262). -/
theorem length_halfwordWords (a : Word) : (halfwordWords a).length = if a.toNat % 4 = 3 then 2 else 1 := by
  unfold halfwordWords
  rw [lane_eq_mod]
  by_cases h : a.toNat % 4 = 3
  · rw [if_neg (by omega), if_pos h]; rfl
  · rw [if_pos (by omega), if_neg h]; rfl

/-- STURH reads and writes each word that holds its halfword (R252). -/
theorem portTraffic_sturh (s : State) (rd rn : Reg) (imm9 : BitVec 9) : portTraffic s (.sturh rd rn imm9) =
    ((halfwordWords (narrowStoreAddress s rn imm9)).length, (halfwordWords (narrowStoreAddress s rn imm9)).length) := by
  rw [length_halfwordWords, portTraffic]
  split <;> rfl

/-- LDURH reads each word that holds its halfword (R262). -/
theorem portTraffic_ldurh (s : State) (rd rn : Reg) (imm9 : BitVec 9) : portTraffic s (.ldurh rd rn imm9) =
    ((halfwordWords (effectiveAddress s rn imm9)).length, 0) := by
  rw [length_halfwordWords, portTraffic]
  split <;> rfl

/-- The word commands of each instruction are those of R72. -/
theorem effect_portLog (s : State) (i : Instr) : PortLog (effect s i).events (portTraffic s i) := by
  cases i with
  | bCond imm19 cond =>
    exact bCondEffect_elim (fun e => PortLog e.events (0, 0)) s imm19 cond (fun _ => portLog_nil) (portLog_diag _)
  | movz rd imm16 hw =>
    simp only [effect, Effect.result]
    split
    · exact portLog_nil
    · exact portLog_diag _
  | stur => exact portLog_stores ..
  | sturb => exact portLog_loads_stores ..
  | sturh rd rn imm9 => exact portTraffic_sturh s rd rn imm9 ▸ portLog_loads_stores ..
  | ldur | ldurb => exact portLog_loads ..
  | ldurh rd rn imm9 => exact portTraffic_ldurh s rd rn imm9 ▸ portLog_loads ..
  | _ => exact portLog_nil

/-! ### Memory (R61, R66) -/

/-- A memory in canonical form that lists bytes at mapped addresses only: the memory part of the invariant. -/
structure MemoryOk (c : Config) (m : Memory) : Prop where
  wf     : m.wf = true
  mapped : ∀ a : Word, m.readByte a ≠ unlistedByte → isMapped c a = true

/-- Writing a mapped word keeps memory canonical and inside the mapped addresses. -/
theorem memoryOk_writeWord {c : Config} {m : Memory} (h : MemoryOk c m) (a : Word) (w : Word32)
    (ha : wordMapped c a = true) : MemoryOk c (m.writeWord a w) where
  wf := wf_writeWord m a w h.wf
  mapped b hb := by
    rw [readByte_writeWord] at hb
    by_cases hin : (b - a).toNat < 4
    · have := (wordMapped_iff c a).mp ha _ hin
      rwa [BitVec.ofNat_toNat, BitVec.setWidth_eq, BitVec.add_comm, BitVec.sub_add_cancel] at this
    · rw [if_neg hin] at hb
      exact h.mapped b hb

section
variable {s : State} (h : MemoryOk s.config s.mem)
include h

theorem memoryOk_storeDoubleword (a v : Word) (hw : ∀ x ∈ doublewordWords a, wordMapped s.config x = true) :
    MemoryOk s.config (storeDoubleword a v s).mem :=
  memoryOk_writeWord (memoryOk_writeWord h a _ (hw a (by simp [doublewordWords]))) (a + 4) _
    (hw (a + 4) (by simp [doublewordWords]))

theorem memoryOk_storeByte (a : Word) (v : Byte) (hw : ∀ x ∈ [wordAddress a], wordMapped s.config x = true) :
    MemoryOk s.config (storeByte a v s).mem :=
  memoryOk_writeWord h (wordAddress a) _ (hw _ (by simp))

theorem memoryOk_storeHalfword (a : Word) (v : BitVec 16)
    (hw : ∀ x ∈ halfwordWords a, wordMapped s.config x = true) :
    MemoryOk s.config (storeHalfword a v s).mem := by
  unfold halfwordWords at hw
  unfold storeHalfword
  split
  · rename_i hl
    exact memoryOk_writeWord h (wordAddress a) _ (hw _ (by simp [hl]))
  · rename_i hl
    exact memoryOk_writeWord (memoryOk_writeWord h (wordAddress a) _ (hw _ (by simp [hl]))) (wordAddress a + 4) _
      (hw _ (by simp [hl]))

omit h in
/-- Data checks that pass found every word mapped. -/
theorem words_mapped {ea : Word} {mis : Bool} {words : List Word} (hf : dataFault s ea mis words = none) :
    ∀ x ∈ words, wordMapped s.config x = true :=
  ((dataFault_eq_none_iff ..).mp hf).2

/-- Once its checks are made, an instruction leaves memory canonical and inside the mapped addresses. -/
theorem effect_memoryOk (i : Instr) (hf : accessFault s i = none) : MemoryOk s.config (effect s i).mem := by
  cases i with
  | bCond imm19 cond => exact bCondEffect_elim (fun e => MemoryOk s.config e.mem) s imm19 cond (fun _ => h) h
  | stur =>
    simp only [effect, Effect.store]
    exact memoryOk_storeDoubleword h _ _ (words_mapped hf)
  | sturb =>
    simp only [effect, Effect.store]
    exact memoryOk_storeByte h _ _ (words_mapped hf)
  | sturh =>
    simp only [effect, Effect.store]
    exact memoryOk_storeHalfword h _ _ (words_mapped hf)
  | _ => exact h

end

/-! ### What a handler reads (R35, R37) -/

/-- Everything the instruction reads is the same in both states: not *next*, not the record of the ports, and of the
flags C for ADCS and Z and N for B.cond (R35). -/
structure SameInputs (i : Instr) (s t : State) : Prop where
  config    : t.config = s.config
  registers : t.current.registers = s.current.registers
  pc        : t.current.pc = s.current.pc
  mem       : t.mem = s.mem
  carry     : (∃ d n m, i = .adcs d n m) → t.current.flags.c = s.current.flags.c
  zn        : (∃ o c, i = .bCond o c) →
    t.current.flags.z = s.current.flags.z ∧ t.current.flags.n = s.current.flags.n

/-- The memory a halfword store leaves depends on memory alone. -/
theorem storeHalfword_mem_congr (a : Word) (v : BitVec 16) (s t : State) (h : t.mem = s.mem) :
    (storeHalfword a v t).mem = (storeHalfword a v s).mem := by
  unfold storeHalfword
  split <;> simp [h]

/-- A condition is a test of Z and N alone (R216). -/
theorem condHolds_congr (cond : Cond) (f g : Flags) (hz : g.z = f.z) (hn : g.n = f.n) :
    condHolds g cond = condHolds f cond := by
  cases cond <;> simp [condHolds, hz, hn]

theorem SameInputs.readReg {i : Instr} {s t : State} (h : SameInputs i s t) (r : Reg) :
    Machine.readReg t r = Machine.readReg s r := by
  simp [Machine.readReg, ArchState.entry, h.registers]

theorem SameInputs.effectiveAddress {i : Instr} {s t : State} (h : SameInputs i s t) (rn : Reg) (imm9 : BitVec 9) :
    Machine.effectiveAddress t rn imm9 = Machine.effectiveAddress s rn imm9 := by
  simp [Machine.effectiveAddress, h.readReg]

theorem SameInputs.narrowStoreAddress {i : Instr} {s t : State} (h : SameInputs i s t) (rn : Reg) (imm9 : BitVec 9) :
    Machine.narrowStoreAddress t rn imm9 = Machine.narrowStoreAddress s rn imm9 := by
  simp [Machine.narrowStoreAddress, h.effectiveAddress, h.config]

theorem SameInputs.branchTarget {i : Instr} {s t : State} (h : SameInputs i s t) (taken : Bool) (offset : Word) :
    Machine.branchTarget t taken offset = Machine.branchTarget s taken offset := by
  simp [Machine.branchTarget, h.pc]

/-- An instruction's checks depend on its inputs alone. -/
theorem accessFault_congr {i : Instr} {s t : State} (h : SameInputs i s t) : accessFault t i = accessFault s i := by
  cases i <;> simp [accessFault, dataFault, h.effectiveAddress, h.narrowStoreAddress, h.config, h.pc]

/-- An instruction's effect depends on its inputs alone. -/
theorem effect_congr {i : Instr} {s t : State} (h : SameInputs i s t) : effect t i = effect s i := by
  cases i with
  | adcs d n m =>
    simp [effect, Effect.result, h.readReg, h.config, h.pc, h.mem, h.carry ⟨d, n, m, rfl⟩]
  | bCond imm19 cond =>
    obtain ⟨hz, hn⟩ := h.zn ⟨imm19, cond, rfl⟩
    simp [effect, bCondEffect, condHolds_congr cond _ _ hz hn, Effect.goto, Effect.diag, h.branchTarget, h.pc, h.mem]
  | stur | sturb =>
    simp [effect, Effect.store, storeDoubleword, storeByte, h.readReg, h.effectiveAddress,
      h.narrowStoreAddress, h.pc, h.mem]
  | sturh =>
    simp [effect, Effect.store, storeHalfword_mem_congr _ _ s t h.mem, h.readReg, h.narrowStoreAddress, h.pc, h.mem]
  | _ =>
    simp [effect, Effect.adds, Effect.subs, Effect.value, Effect.resultZN, Effect.result, Effect.goto, h.readReg,
      h.effectiveAddress, h.branchTarget, h.config, h.pc, h.mem]

/-- Another *next* copy, or another record of the ports, is no other input. -/
theorem sameInputs_of_current (i : Instr) (s t : State) (hconfig : t.config = s.config)
    (hcurrent : t.current = s.current) (hmem : t.mem = s.mem) : SameInputs i s t :=
  ⟨hconfig, by rw [hcurrent], by rw [hcurrent], hmem, fun _ => by rw [hcurrent], fun _ => by simp [hcurrent]⟩

/-! ### Faults (R303) -/

/-- A fault of a handler is a data fault. -/
theorem dataFault_code (s : State) (ea : Word) (mis : Bool) (words : List Word) (f : Fault)
    (h : dataFault s ea mis words = some f) : f.code = 3 ∨ f.code = 4 := by
  obtain ⟨_, rfl⟩ | ⟨_, _, rfl⟩ := (dataFault_eq_some_iff ..).mp h
  · exact .inl rfl
  · exact .inr rfl

theorem accessFault_code (s : State) (i : Instr) (f : Fault) (h : accessFault s i = some f) :
    f.code = 3 ∨ f.code = 4 := by
  cases i with
  | stur | sturb | sturh | ldur | ldurb | ldurh => exact dataFault_code _ _ _ _ _ h
  | _ => exact absurd h nofun

/-! ## What a step does -/

/-- The effect of a fetched word: its instruction's, or that of the class UNKNOWN (R100, R132). -/
def wordEffect (s : State) (w : Word32) : Effect :=
  match decode s.config.shiftReading w with
  | .ok i    => effect s i
  | .error _ => unknownEffect s

/-- The checks of a fetched word. -/
def wordFault (s : State) (w : Word32) : Option Fault :=
  match decode s.config.shiftReading w with
  | .ok i    => accessFault s i
  | .error _ => none

theorem execWord_eq (w : Word32) (s : State) : execWord w s = guarded (wordFault s w) ((wordEffect s w).apply s) := by
  unfold execWord wordFault wordEffect
  cases decode s.config.shiftReading w with
  | ok i => exact exec_eq i s
  | error e => exact execUnknown_eq s

theorem wordEffect_congr (s t : State) (w : Word32) (hconfig : t.config = s.config) (hcurrent : t.current = s.current)
    (hmem : t.mem = s.mem) : wordEffect t w = wordEffect s w := by
  unfold wordEffect
  rw [hconfig]
  cases decode s.config.shiftReading w with
  | ok i => exact effect_congr (sameInputs_of_current i s t hconfig hcurrent hmem)
  | error e => simp [unknownEffect, Effect.diag, hcurrent, hmem]

theorem wordFault_congr (s t : State) (w : Word32) (hconfig : t.config = s.config) (hcurrent : t.current = s.current)
    (hmem : t.mem = s.mem) : wordFault t w = wordFault s w := by
  unfold wordFault
  rw [hconfig]
  cases decode s.config.shiftReading w with
  | ok i => exact accessFault_congr (sameInputs_of_current i s t hconfig hcurrent hmem)
  | error e => rfl

/-- A word clears `run_bit` exactly when it decodes to HLT. -/
theorem wordEffect_halts_iff (s : State) (w : Word32) :
    (wordEffect s w).halts = true ↔ decode s.config.shiftReading w = .ok .hlt := by
  unfold wordEffect
  cases decode s.config.shiftReading w with
  | ok i => simpa using effect_halts_iff s i
  | error e => simp [unknownEffect, Effect.diag]

theorem wordEffect_portLog (s : State) (w : Word32) : ∃ traffic, PortLog (wordEffect s w).events traffic := by
  unfold wordEffect
  cases decode s.config.shiftReading w with
  | ok i => exact ⟨_, effect_portLog s i⟩
  | error e => exact ⟨_, portLog_diag _⟩

theorem wordEffect_memoryOk {s : State} (h : MemoryOk s.config s.mem) (w : Word32) (hf : wordFault s w = none) :
    MemoryOk s.config (wordEffect s w).mem := by
  unfold wordEffect
  unfold wordFault at hf
  cases hd : decode s.config.shiftReading w with
  | ok i =>
    rw [hd] at hf
    exact effect_memoryOk h i hf
  | error e => exact h

/-! ### Every way a step can end (R38, R39) -/

section
variable {s : State} {w : Word32}

theorem step_of_ended (hr : s.runBit = false) : step s = .refused .runEnded := by simp [step, hr]

theorem step_of_fetchFault {f : Fault} (hr : s.runBit = true) (hf : fetchWord s = .error f) : step s = .fault f := by
  simp [step, hr, hf]

theorem step_of_fetched (hr : s.runBit = true) (hf : fetchWord s = .ok w) :
    step s = commitOutcome (execWord w (afterFetch w s)) := by
  simp [step, hr, hf]

theorem step_of_dataFault {f : Fault} (hr : s.runBit = true) (hf : fetchWord s = .ok w)
    (hd : wordFault (afterFetch w s) w = some f) : step s = .fault f := by
  rw [step_of_fetched hr hf, execWord_eq, hd]; rfl

/-- The state at the end of a step that goes on. -/
def completed (w : Word32) (s : State) : State := commit ((wordEffect (afterFetch w s) w).apply (afterFetch w s))

theorem step_of_completes (hr : s.runBit = true) (hf : fetchWord s = .ok w)
    (hd : wordFault (afterFetch w s) w = none) : step s = .next (completed w s) := by
  rw [step_of_fetched hr hf, execWord_eq, hd]; rfl

end

/-- A step that goes on: the fetch returned a word, its checks passed, and its effect was committed. -/
theorem step_eq_next_completed {s t : State} (h : step s = .next t) : s.runBit = true ∧ ∃ w, fetchWord s = .ok w ∧
    wordFault (afterFetch w s) w = none ∧ t = completed w s := by
  obtain ⟨hr, w, u, hf, -, -⟩ := (step_eq_next_iff s t).mp h
  rw [step_of_fetched hr hf, commitOutcome_eq_next_iff, execWord_eq] at h
  obtain ⟨u, hu, rfl⟩ := h
  obtain ⟨hd, rfl⟩ := (guarded_eq_next_iff ..).mp hu
  exact ⟨hr, w, hf, hd, rfl⟩

/-- The word a step fetched is the one in memory at the pc (R62). -/
theorem fetchWord_ok_eq {s : State} {w : Word32} (h : fetchWord s = .ok w) : w = s.mem.readWord s.current.pc :=
  ((fetchWord_eq_ok_iff s w).mp h).2.2

end Sys2Proof.Machine

/-! # The statements on registers, the double buffer, the run loop and the invariant -/

namespace Sys2Proof.Proofs

open Sys2Proof.Machine Sys2Proof.Claims

/-! ## The invariant -/

theorem invariant_iff (s : State) : Invariant s ↔ s.next = s.current ∧ MemoryOk s.config s.mem :=
  ⟨fun ⟨hb, hm, hi⟩ => ⟨hb, hm, hi⟩, fun ⟨hb, hm, hi⟩ => ⟨hb, hm, hi⟩⟩

/-- Settles O26: a step ends with a commit, and its stores write words that its checks found mapped. -/
theorem everyStepKeepsTheInvariant : Obligations.EveryStepKeepsTheInvariant := by
  intro s t hinv hstep
  obtain ⟨-, hmem⟩ := (invariant_iff s).mp hinv
  obtain ⟨-, w, -, hd, rfl⟩ := step_eq_next_completed hstep
  have hkept : MemoryOk s.config (wordEffect (afterFetch w s) w).mem :=
    wordEffect_memoryOk (s := afterFetch w s) hmem w hd
  exact (invariant_iff _).mpr ⟨rfl, by simpa [completed] using hkept⟩

/-! ## What handlers write and read -/

/-- Settles O9: no part of an effect is *current* or the parameters. -/
theorem handlersWriteOnlyNext : Obligations.HandlersWriteOnlyNext := by
  intro i s t h
  obtain ⟨-, rfl⟩ := (exec_eq_next_iff i s t).mp h
  exact ⟨Effect.apply_current _ _, Effect.apply_config _ _⟩

/-- From two *next* copies an effect gives each entry the same value, or leaves it in both. -/
theorem apply_entry_alike (e : Effect) (s : State) (n : ArchState) (j : Reg) :
    (e.apply { s with next := n }).next.entry j = (e.apply s).next.entry j ∨
      ((e.apply s).next.entry j = s.next.entry j ∧ (e.apply { s with next := n }).next.entry j = n.entry j) := by
  simp only [Effect.apply_next_entry]
  cases e.dest with
  | none => exact .inr ⟨rfl, rfl⟩
  | some write =>
    by_cases hj : write.1 ≠ xzr ∧ j = write.1
    · simp [hj]
    · simp [hj]

/-- A flag write gives Z and N the same values from any flags, or leaves them. -/
theorem flagWrite_zn_alike (fw : FlagWrite) (f g : Flags) :
    (fw.apply g).z = (fw.apply f).z ∧ (fw.apply g).n = (fw.apply f).n ∨
      (fw.apply f).z = f.z ∧ (fw.apply f).n = f.n ∧ (fw.apply g).z = g.z ∧ (fw.apply g).n = g.n := by
  cases fw with
  | keep => exact .inr ⟨rfl, rfl, rfl, rfl⟩
  | zn r => exact .inl ⟨rfl, rfl⟩
  | all h => exact .inl ⟨rfl, rfl⟩

/-- A flag write gives C and V the same values from any flags, or leaves them. -/
theorem flagWrite_cv_alike (fw : FlagWrite) (f g : Flags) :
    (fw.apply g).c = (fw.apply f).c ∧ (fw.apply g).v = (fw.apply f).v ∨
      (fw.apply f).c = f.c ∧ (fw.apply f).v = f.v ∧ (fw.apply g).c = g.c ∧ (fw.apply g).v = g.v := by
  cases fw with
  | keep => exact .inr ⟨rfl, rfl, rfl, rfl⟩
  | zn r => exact .inr ⟨rfl, rfl, rfl, rfl⟩
  | all h => exact .inl ⟨rfl, rfl⟩

/-- Settles O10: the effect is the same from both *next* copies. -/
theorem handlersReadOnlyCurrent : Obligations.HandlersReadOnlyCurrent := by
  intro i s n
  have hsame : SameInputs i s { s with next := n } := sameInputs_of_current i s _ rfl rfl rfl
  have hcheck := accessFault_congr hsame
  refine ⟨fun f hf => ?_, fun t ht => ?_⟩
  · rw [exec_eq_fault_iff] at hf ⊢
    rw [hcheck, hf]
  · obtain ⟨hpass, rfl⟩ := (exec_eq_next_iff i s t).mp ht
    refine ⟨(effect s i).apply { s with next := n }, ?_, by simp, by simp, by simp, by simp,
      apply_entry_alike _ s n, flagWrite_zn_alike _ _ _, flagWrite_cv_alike _ _ _⟩
    rw [exec_eq_next_iff, hcheck, effect_congr hsame]
    exact ⟨hpass, rfl⟩

/-- Settles O18, by the pc of the effect. -/
theorem nonBranchingHandlersAdvancePcByFour : Obligations.NonBranchingHandlersAdvancePcByFour := by
  intro i s t h hbranch
  obtain ⟨-, rfl⟩ := (exec_eq_next_iff i s t).mp h
  exact effect_pc s i hbranch

/-- Settles O19: branch offsets are multiples of 4, and so is the fall-through. -/
theorem pcStaysAlignedUnlessBr : Obligations.PcStaysAlignedUnlessBr := by
  intro i s t h hbr haligned
  obtain ⟨-, rfl⟩ := (exec_eq_next_iff i s t).mp h
  exact effect_pc_aligned s i hbr haligned

/-- An entry that an effect changes is the one it writes, and not entry 31. -/
theorem dest_of_entry_changed (e : Effect) (s : State) (j : Reg) (h : (e.apply s).next.entry j ≠ s.next.entry j) :
    e.dest.map Prod.fst = some j ∧ j ≠ xzr := by
  rw [Effect.apply_next_entry] at h
  cases hd : e.dest with
  | none => simp [hd] at h
  | some write =>
    by_cases hj : write.1 ≠ xzr ∧ j = write.1
    · obtain ⟨hne, rfl⟩ := hj
      exact ⟨rfl, hne⟩
    · simp [hd, hj] at h

/-- Settles O20, by the register the effect writes. -/
theorem onlyTheDestinationRegisterChanges : Obligations.OnlyTheDestinationRegisterChanges := by
  intro i s t j h hchanged
  obtain ⟨-, rfl⟩ := (exec_eq_next_iff i s t).mp h
  rw [← effect_dest s i]
  exact dest_of_entry_changed _ s j hchanged

/-- Settles O21: the flag write of the effect, and that the effect depends on its inputs alone. -/
theorem flagWritersAndReaders : Obligations.FlagWritersAndReaders := by
  refine ⟨fun i s t h hall => ?_, fun i s t f h hc hzn => ?_⟩
  · obtain ⟨-, rfl⟩ := (exec_eq_next_iff i s t).mp h
    cases hw : writesZN i with
    | false =>
      have hkeep := effect_flags_keep s i hall hw
      simp [hkeep, FlagWrite.apply]
    | true =>
      obtain ⟨r, hr⟩ := effect_flags_zn s i hw
      simp [hr, FlagWrite.apply, setZN]
  · have hsame : SameInputs i s { s with current := { s.current with flags := f } } :=
      ⟨rfl, rfl, rfl, rfl, hc, hzn⟩
    obtain ⟨hpass, rfl⟩ := (exec_eq_next_iff i s t).mp h
    rw [exec_eq_next_iff, accessFault_congr hsame, effect_congr hsame]
    refine ⟨hpass, ?_⟩
    unfold Effect.apply
    cases (effect s i).dest with
    | none => rfl
    | some write => simp only [writeDest, writeReg]; split <;> rfl

/-! ## What a step observes and leaves -/

/-- The same machine with another record of its ports. -/
def withTrace (s : State) (tr : List PortEvent) : State := { s with trace := tr }

/-- A fetch does not read the record. -/
theorem fetchWord_withTrace (s : State) (tr : List PortEvent) : fetchWord (withTrace s tr) = fetchWord s := rfl

/-- The checks of a fetched word do not read the record. -/
theorem wordFault_withTrace (w : Word32) (s : State) (tr : List PortEvent) :
    wordFault (afterFetch w (withTrace s tr)) w = wordFault (afterFetch w s) w := wordFault_congr _ _ w rfl rfl rfl

/-- Another record of the ports passes through an effect: the same events follow it. -/
theorem completed_withTrace (w : Word32) (s : State) (tr : List PortEvent) :
    ∃ events, (completed w s).trace = s.trace ++ events ∧
      completed w (withTrace s tr) = withTrace (completed w s) (tr ++ events) := by
  refine ⟨.fetch s.current.pc w :: (wordEffect (afterFetch w s) w).events, by simp [completed], ?_⟩
  unfold completed
  rw [wordEffect_congr (afterFetch w s) (afterFetch w (withTrace s tr)) w rfl rfl rfl]
  unfold Effect.apply
  cases (wordEffect (afterFetch w s) w).dest with
  | none => simp [withTrace, writeDest, commit, writePc, writeFlags, afterFetch, stage, emit]
  | some write =>
    simp only [writeDest, writeReg]
    split <;> simp [withTrace, commit, writePc, writeFlags, afterFetch, stage, emit]

/-- Settles O11: *next* is staged over, and every way a step can end is the same with another record. -/
theorem nextBufferAndTraceAreUnobservable : Obligations.NextBufferAndTraceAreUnobservable := by
  refine ⟨fun s n => rfl, fun s tr => ?_⟩
  change (∀ f, step s = .fault f → step (withTrace s tr) = .fault f) ∧
    (∀ r, step s = .refused r → step (withTrace s tr) = .refused r) ∧
    ∀ t, step s = .next t → ∃ events, t.trace = s.trace ++ events ∧
      step (withTrace s tr) = .next (withTrace t (tr ++ events))
  rcases Bool.eq_false_or_eq_true s.runBit with hr | hr
  · have hr' : (withTrace s tr).runBit = true := hr
    cases hf : fetchWord s with
    | error f =>
      rw [step_of_fetchFault hr hf, step_of_fetchFault hr' ((fetchWord_withTrace s tr).trans hf)]
      simp
    | ok w =>
      have hf' := (fetchWord_withTrace s tr).trans hf
      cases hd : wordFault (afterFetch w s) w with
      | some f =>
        rw [step_of_dataFault hr hf hd, step_of_dataFault hr' hf' ((wordFault_withTrace w s tr).trans hd)]
        simp
      | none =>
        rw [step_of_completes hr hf hd, step_of_completes hr' hf' ((wordFault_withTrace w s tr).trans hd)]
        refine ⟨by simp, by simp, fun t ht => ?_⟩
        obtain rfl := Host.Outcome.next.inj ht
        obtain ⟨events, htrace, heq⟩ := completed_withTrace w s tr
        exact ⟨events, htrace, congrArg _ heq⟩
  · have hr' : (withTrace s tr).runBit = false := hr
    rw [step_of_ended hr, step_of_ended hr']
    simp

/-- Settles O17: only the effect of HLT clears `run_bit`. -/
theorem runBitIsFalseAfterExactlyHlt : Obligations.RunBitIsFalseAfterExactlyHlt := by
  intro s t h
  obtain ⟨hr, w, hf, -, rfl⟩ := step_eq_next_completed h
  have hhalts := wordEffect_halts_iff (afterFetch w s) w
  rw [← fetchWord_ok_eq hf]
  simpa [completed, hr] using hhalts

/-- Settles O23: the events of the effect follow the fetch. -/
theorem portTrafficOfEachStep : Obligations.PortTrafficOfEachStep := by
  refine ⟨fun i s t h => ?_, fun s t h => ?_⟩
  · obtain ⟨-, rfl⟩ := (exec_eq_next_iff i s t).mp h
    obtain ⟨htraffic, hfetches, hdiags, hordered⟩ := effect_portLog s i
    exact ⟨_, Effect.apply_trace _ _, htraffic, hfetches, hdiags, hordered⟩
  · obtain ⟨-, w, hf, -, rfl⟩ := step_eq_next_completed h
    obtain ⟨_, hlog⟩ := wordEffect_portLog (afterFetch w s) w
    rw [← fetchWord_ok_eq hf]
    exact ⟨_, by simp [completed], hlog.fetches, hlog.diags⟩

/-- Settles O12: a fetch that passes its checks leads to the handler of the word. -/
theorem stepRunsTheDecodedInstruction : Obligations.StepRunsTheDecodedInstruction := by
  refine ⟨fun s i hr halign hmapped hdecode => ?_, fun t => rfl, fun f => rfl, fun r => rfl⟩
  have hf : fetchWord s = .ok (s.mem.readWord s.current.pc) := (fetchWord_eq_ok_iff ..).mpr ⟨halign, hmapped, rfl⟩
  rw [step_of_fetched hr hf, execWord, afterFetch_config, hdecode]
  rfl

/-- Settles O13: the last thing a step does is the commit. -/
theorem stepEndsCommitted : Obligations.StepEndsCommitted := by
  intro s t h
  obtain ⟨hr, w, -, -, rfl⟩ := step_eq_next_completed h
  exact ⟨hr, rfl, by simp [completed]⟩

/-- Settles O15. -/
theorem noStepOnceRunBitIsFalse : Obligations.NoStepOnceRunBitIsFalse :=
  fun _ hr => step_of_ended hr

/-! ## Registers and HLT -/

/-- The stored entry 31 is never written (R32). -/
theorem writeReg_entry_xzr (i : Reg) (v : Word) (s : State) : (writeReg i v s).next.entry xzr = s.next.entry xzr := by
  rw [writeReg_next_entry, if_neg]
  rintro ⟨hi, rfl⟩
  exact hi rfl

/-- The stored entry 31 is never read (R31). -/
theorem readReg_set_xzr (s : State) (i : Reg) (v : Word) :
    readReg { s with current := { s.current with registers := s.current.registers.set 31 v } } i = readReg s i := by
  by_cases hi : i = xzr
  · rw [hi, readReg_xzr, readReg_xzr]
  · have hne : 31 ≠ (i : Nat) := fun h => hi (Fin.ext h.symm)
    rw [readReg_of_ne _ _ hi, readReg_of_ne _ _ hi]
    exact Vector.getElem_set_ne (by decide) i.isLt hne

/-- Settles O8, by the rules of a register read and write. -/
theorem zeroRegisterReadsZeroAndDiscardsWrites : Obligations.ZeroRegisterReadsZeroAndDiscardsWrites := by
  refine ⟨readReg_xzr, readReg_of_ne, fun s v => writeReg_xzr v s, fun s i v hi => ?_,
    fun s i j v hj => writeReg_other i j v s hj, fun s i v hi => writeReg_self i v s hi,
    fun s i v => ⟨writeReg_current s i v, writeReg_entry_xzr i v s⟩, readReg_set_xzr⟩
  rw [readReg_of_ne _ _ hi]
  exact writeReg_self i v s hi

/-- Words with op11 0x6A2 are HLT (R101, R130). -/
theorem decodesAs_hlt : DecodesAs 0x6A2 0x6A2 (fun _ => .hlt) := by
  intro r w hlo hhi
  have hop : w.toNat / 2 ^ 21 = 0x6A2 := by
    have hle : 0x6A2 ≤ (w.extractLsb' 21 11).toNat := hlo
    have hge : (w.extractLsb' 21 11).toNat ≤ 0x6A2 := hhi
    rw [toNat_field] at hle hge
    have := w.isLt
    omega
  have hclass : classify w = some .hlt := classify_of_range 0x6A2 1 .hlt w (by decide) (by omega)
  rw [decode, hclass]
  rfl

/-- Settles O16: the effect of HLT, and of every other instruction. -/
theorem hltClearsRunBitAndEndsTheRun : Obligations.HltClearsRunBitAndEndsTheRun := by
  refine ⟨decodesAs_hlt, fun i s t h hne => ?_, fun s => ?_⟩
  · obtain ⟨-, rfl⟩ := (exec_eq_next_iff i s t).mp h
    have hhalts : (effect s i).halts = false := Bool.eq_false_iff.mpr (mt (effect_halts_iff s i).mp hne)
    simp [hhalts]
  · refine ⟨_, execHlt_eq s, ?_, fun _ => rfl, rfl, fun _ => rfl,
      ⟨rfl, rfl, rfl, by simp [effect]⟩, step_of_ended ?_⟩ <;> simp [effect]

/-! ## Reset -/

/-- The invariant at a valid boot (R330, R333). -/
theorem invariant_resetWith {c : Config} {b : Boot} (h : BootValid c b) : Invariant (State.resetWith c b) :=
  ⟨rfl, h.memory, h.mapped⟩

/-- Nothing is listed in the memory of `State.reset`. -/
theorem invariant_reset : Invariant State.reset :=
  ⟨rfl, wf_nil, fun _ h => absurd rfl h⟩

/-- The first fetch after a valid boot passes its checks (R333). -/
theorem fetchWord_resetWith_ne_error {c : Config} {b : Boot} (h : BootValid c b) (f : Fault) :
    fetchWord (State.resetWith c b) ≠ .error f := by
  rw [Ne, fetchWord_eq_error_iff]
  rintro (⟨hmis, -⟩ | ⟨-, hunmapped, -⟩)
  · exact hmis (.inr h.aligned)
  · exact hunmapped h.pcMapped

/-- Settles O25: a valid boot passes the checks of the first fetch, so only a data check can fault. -/
theorem resetMeetsTheInvariant : Obligations.ResetMeetsTheInvariant := by
  refine ⟨invariant_reset, fun c b h => invariant_resetWith h, fun c b h f hstep => ?_⟩
  obtain ⟨-, hfetch | ⟨w, i, -, -, hexec⟩⟩ := (step_eq_fault_iff _ f).mp hstep
  · exact absurd hfetch (fetchWord_resetWith_ne_error h f)
  · exact accessFault_code _ i f ((exec_eq_fault_iff i _ f).mp hexec)

end Sys2Proof.Proofs

/-! # Memory: what instructions do to it, and what the fetch and the checks find in it (20_memory.md) -/

namespace Sys2Proof.Machine

/-! ## Words of memory (R62, R64) -/

/-- The two words of a 64-bit store, as words of memory (R250, D23). -/
theorem readWord_storeDoubleword_low (a v : Word) (s : State) :
    (storeDoubleword a v s).mem.readWord a = v.extractLsb' 0 32 := by
  rw [storeDoubleword, storeWord_mem, readWord_writeWord_next, storeWord_mem, readWord_writeWord]

theorem readWord_storeDoubleword_high (a v : Word) (s : State) :
    (storeDoubleword a v s).mem.readWord (a + 4) = v.extractLsb' 32 32 := by
  rw [storeDoubleword, storeWord_mem, readWord_writeWord]

/-! ## The bytes an instruction writes (R72, R73) -/

/-- No other instruction than a store writes memory. -/
theorem effect_mem_of_not_store (s : State) (i : Instr) (h : isStore i = false) : (effect s i).mem = s.mem := by
  cases i with
  | stur | sturb | sturh => exact absurd h (by simp [isStore])
  | bCond imm19 cond => exact bCondEffect_elim (fun e => e.mem = s.mem) s imm19 cond (fun _ => rfl) rfl
  | _ => rfl

section
variable (s : State) (rd rn : Reg) (imm9 : BitVec 9)

theorem effect_stur_mem : (effect s (.stur rd rn imm9)).mem =
    (storeDoubleword (effectiveAddress s rn imm9) (readReg s rd) s).mem := rfl

theorem effect_sturb_mem : (effect s (.sturb rd rn imm9)).mem =
    (storeByte (narrowStoreAddress s rn imm9) ((readReg s rd).setWidth 8) s).mem := rfl

theorem effect_sturh_mem : (effect s (.sturh rd rn imm9)).mem =
    (storeHalfword (narrowStoreAddress s rn imm9) ((readReg s rd).setWidth 16) s).mem := rfl

end

section
variable (s : State) (a : Word)

theorem memoryKeptOutside_storeDoubleword (v : Word) : MemoryKeptOutside s (storeDoubleword a v s) a 8 :=
  fun b hb => (readByte_storeDoubleword a b v s).trans (if_neg (by omega))

theorem memoryKeptOutside_storeByte (v : Byte) : MemoryKeptOutside s (storeByte a v s) a 1 := by
  intro b hb
  have hne : b ≠ a := by bv_omega
  rw [readByte_storeByte, if_neg hne]

theorem memoryKeptOutside_storeHalfword (v : BitVec 16) : MemoryKeptOutside s (storeHalfword a v s) a 2 := by
  intro b hb
  have hne : b ≠ a := by bv_omega
  have hne' : b ≠ a + 1 := by bv_omega
  rw [readByte_storeHalfword, if_neg hne, if_neg hne']

end

/-- A store changes no byte outside its access. -/
theorem memoryKeptOutside_of_store {s t : State} {i : Instr} (h : exec i s = .next t) (hstore : isStore i = true)
    {a : Word} {n : Nat} (haccess : dataAccess s i = some (a, n)) : MemoryKeptOutside s t a n := by
  obtain ⟨-, rfl⟩ := (exec_eq_next_iff i s t).mp h
  intro b hb
  rw [Effect.apply_mem]
  cases i with
  | stur =>
    obtain ⟨rfl, rfl⟩ := Prod.mk.inj (Option.some.inj haccess)
    rw [effect_stur_mem]
    exact memoryKeptOutside_storeDoubleword s _ _ b hb
  | sturb =>
    obtain ⟨rfl, rfl⟩ := Prod.mk.inj (Option.some.inj haccess)
    rw [effect_sturb_mem]
    exact memoryKeptOutside_storeByte s _ _ b hb
  | sturh =>
    obtain ⟨rfl, rfl⟩ := Prod.mk.inj (Option.some.inj haccess)
    rw [effect_sturh_mem]
    exact memoryKeptOutside_storeHalfword s _ _ b hb
  | _ => exact absurd hstore (by simp [isStore])

/-- An instruction that is no store changes no byte. -/
theorem memoryKept_of_not_store {s t : State} {i : Instr} (h : exec i s = .next t) (hstore : isStore i = false) :
    MemoryKept s t := by
  obtain ⟨-, rfl⟩ := (exec_eq_next_iff i s t).mp h
  intro b
  rw [Effect.apply_mem, effect_mem_of_not_store s i hstore]

/-! ## Fetch (R67) -/

/-- A fetch whose checks pass returns the word at the pc. -/
theorem fetchWord_of_fetchFault_none {s : State} (h : fetchFault s = none) :
    fetchWord s = .ok (s.mem.readWord s.current.pc) := by
  rw [fetchWord, h]

/-- The word the loader placed is the one at the pc (R333). -/
theorem readWord_withFetchWord (s : State) (w : Word32) :
    (s.withFetchWord 32 w.toNat).mem.readWord s.current.pc = w := by
  rw [State.withFetchWord, readWord_writeWord, Nat.mod_eq_of_lt w.isLt, BitVec.ofNat_toNat, BitVec.setWidth_eq]

/-! ## A memory that is total and lenient (R61, R65, D5, D6) -/

theorem fetchWord_of_lenient {s : State} (h : LenientMemory s.config) :
    fetchWord s = .ok (s.mem.readWord s.current.pc) := by
  obtain ⟨hmapped, hbytewise⟩ := h
  exact (fetchWord_eq_ok_iff ..).mpr ⟨.inl hbytewise, fun _ _ => hmapped _, rfl⟩

theorem dataFault_of_lenient {s : State} (h : LenientMemory s.config) (ea : Word) (mis : Bool) (words : List Word) :
    dataFault s ea mis words = none := by
  obtain ⟨hmapped, hbytewise⟩ := h
  exact (dataFault_eq_none_iff ..).mpr ⟨.inl hbytewise, fun _ _ => (wordMapped_iff ..).mpr fun _ _ => hmapped _⟩

theorem accessFault_of_lenient {s : State} (h : LenientMemory s.config) (i : Instr) : accessFault s i = none := by
  cases i with
  | stur | sturb | sturh | ldur | ldurb | ldurh => exact dataFault_of_lenient h ..
  | _ => rfl

theorem wordFault_of_lenient {s : State} (h : LenientMemory s.config) (w : Word32) : wordFault s w = none := by
  unfold wordFault
  cases decode s.config.shiftReading w with
  | ok i => exact accessFault_of_lenient h i
  | error e => rfl

@[simp] theorem completed_config (w : Word32) (s : State) : (completed w s).config = s.config := by
  simp [completed]

end Sys2Proof.Machine

namespace Sys2Proof.Proofs

open Sys2Proof.Machine Sys2Proof.Claims

/-- The place of a byte among those from `a` on. -/
theorem toNat_addr_sub (a : Word) (k : Nat) (hk : k < 2 ^ 64) : (addr a k - a).toNat = k := by
  rw [addr, BitVec.add_comm, BitVec.add_sub_cancel, BitVec.toNat_ofNat, Nat.mod_eq_of_lt hk]

/-- Settles O22: no effect but a store's has another memory, and a store's differs in the bytes of its access. -/
theorem onlyStoresChangeMemory : Obligations.OnlyStoresChangeMemory := by
  intro i s t h
  refine ⟨memoryKept_of_not_store h, fun a n haccess => ?_⟩
  cases hstore : isStore i with
  | false => exact fun b _ => memoryKept_of_not_store h hstore b
  | true => exact memoryKeptOutside_of_store h hstore haccess

/-- Settles O43, by what a word write does to every byte. -/
theorem wordAccessIsLittleEndian : Obligations.WordAccessIsLittleEndian := by
  refine ⟨fun m a => ?_, fun m a w k hk => ?_, fun m a b w hb => ?_⟩
  · have hbytes := toNat_wordOfBytes (m.readByte a) (m.readByte (addr a 1)) (m.readByte (addr a 2))
      (m.readByte (addr a 3))
    exact hbytes.trans (by omega)
  · have hoffset : (addr a k - a).toNat = k := toNat_addr_sub a k (by omega)
    rw [readByte_writeWord, hoffset, if_pos hk]
    rfl
  · rw [readByte_writeWord, if_neg (by omega)]

/-- Settles O53: the fetch reads the words of memory that the store wrote. -/
theorem storeIsSeenByLaterFetch : Obligations.StoreIsSeenByLaterFetch := by
  intro d n imm s t u h hmem hfetch
  obtain ⟨-, rfl⟩ := (exec_eq_next_iff _ s t).mp h
  rw [fetchWord_of_fetchFault_none hfetch, hmem, Effect.apply_mem, effect_stur_mem]
  refine ⟨fun hpc => ?_, fun hpc => ?_⟩
  · rw [hpc, readWord_storeDoubleword_low]
  · rw [hpc, readWord_storeDoubleword_high]

/-- Settles O54: the step runs the instruction of the word in memory at the pc, which is the word placed there. -/
theorem placedWordRunsNext : Obligations.PlacedWordRunsNext := by
  intro s w i hr halign hmapped hdecode
  have hf : fetchWord (s.withFetchWord 32 w.toNat) = .ok w :=
    (fetchWord_eq_ok_iff ..).mpr ⟨halign, hmapped, (readWord_withFetchWord s w).symm⟩
  have hr' : (s.withFetchWord 32 w.toNat).runBit = true := hr
  have hdecode' : decode (afterFetch w (s.withFetchWord 32 w.toNat)).config.shiftReading w = .ok i := hdecode
  rw [step_of_fetched hr' hf, execWord, hdecode']

/-- Settles O55, by everything a fetch can answer. -/
theorem fetchChecksAlignmentThenMapping : Obligations.FetchChecksAlignmentThenMapping := by
  intro s hr
  refine ⟨fun hmis => ?_, fun halign hunmapped => ?_, fun halign hmapped => ?_⟩
  · exact step_of_fetchFault hr ((fetchWord_eq_error_iff ..).mpr (.inl ⟨hmis, rfl⟩))
  · exact step_of_fetchFault hr ((fetchWord_eq_error_iff ..).mpr (.inr ⟨halign, hunmapped, rfl⟩))
  · exact (fetchWord_eq_ok_iff ..).mpr ⟨halign, hmapped, rfl⟩

/-- Settles O57: a lenient memory passes the checks of the fetch and of every word. -/
theorem lenientMemoryNeverFaults : Obligations.LenientMemoryNeverFaults := by
  intro s hlenient hr
  have hstep : step s = .next (completed (s.mem.readWord s.current.pc) s) :=
    step_of_completes hr (fetchWord_of_lenient hlenient) (wordFault_of_lenient hlenient _)
  refine ⟨fun f => by simp [hstep], _, hstep, ?_⟩
  rwa [completed_config]

end Sys2Proof.Proofs

/-! # Encoding and decoding (30_encoding.md)

A word is a word of a class exactly when its opcode field holds the class's opcode (`classify_eq_some_iff`), and the
instruction of a class is determined by, and determines, the fields the class reads (`instrOfClass_eq_iff`). From both
follows `decode_eq_ok_iff`: a word decodes to `i` exactly when `i` is well-formed and the word agrees with `encode i` on
the bits read for `i`. -/

namespace Sys2Proof

/-! ## Words that agree on some bits -/

/-- The mask of the `n` bits of a word from bit `lo` on. -/
def bitsAt (lo n : Nat) : Word32 := (BitVec.allOnes n).setWidth 32 <<< lo

/-- The mask of some fields, each given by its lowest bit and its width. -/
def bitsOf (fields : List (Nat × Nat)) : Word32 := fields.foldr (fun f mask => bitsAt f.1 f.2 ||| mask) 0

/-- Agreement under a mask, bit by bit. -/
theorem and_eq_and_iff (w w' m : Word32) :
    w &&& m = w' &&& m ↔ ∀ k, m.getLsbD k = true → w.getLsbD k = w'.getLsbD k := by
  rw [BitVec.eq_of_getLsbD_eq_iff]
  constructor
  · intro h k hk
    simpa [hk] using h k (BitVec.lt_of_getLsbD hk)
  · intro h k _
    cases hm : m.getLsbD k with
    | false => simp [hm]
    | true => simp [hm, h k hm]

/-- To agree on a field's bits is to have equal fields. -/
theorem and_bitsAt_eq_iff (w w' : Word32) (lo n : Nat) :
    w &&& bitsAt lo n = w' &&& bitsAt lo n ↔ w.extractLsb' lo n = w'.extractLsb' lo n := by
  have hbit (k : Nat) : (bitsAt lo n).getLsbD k = true ↔ k < 32 ∧ lo ≤ k ∧ k < lo + n := by
    simp [bitsAt]; omega
  rw [and_eq_and_iff, BitVec.eq_of_getLsbD_eq_iff]
  simp only [hbit, BitVec.getLsbD_extractLsb']
  constructor
  · intro h j hj
    by_cases hin : lo + j < 32
    · rw [h (lo + j) ⟨hin, by omega, by omega⟩]
    · simp [BitVec.getLsbD_of_ge _ _ (Nat.le_of_not_lt hin)]
  · rintro h k ⟨_, hlo, hhi⟩
    have hk := h (k - lo) (by omega)
    simpa [show lo + (k - lo) = k by omega, show k - lo < n by omega] using hk

/-- To agree on the bits of some fields is to have each of them equal. -/
theorem and_bitsOf_eq_iff (w w' : Word32) (fields : List (Nat × Nat)) :
    w &&& bitsOf fields = w' &&& bitsOf fields ↔
      ∀ f ∈ fields, w.extractLsb' f.1 f.2 = w'.extractLsb' f.1 f.2 := by
  induction fields with
  | nil => simp [bitsOf]
  | cons f fields ih =>
    have hor : w &&& bitsOf (f :: fields) = w' &&& bitsOf (f :: fields) ↔
        w &&& bitsAt f.1 f.2 = w' &&& bitsAt f.1 f.2 ∧ w &&& bitsOf fields = w' &&& bitsOf fields := by
      simp only [and_eq_and_iff, bitsOf, List.foldr_cons, BitVec.getLsbD_or, Bool.or_eq_true, or_imp, forall_and]
    rw [hor, and_bitsAt_eq_iff, ih, List.forall_mem_cons]

/-! ## The opcode of a class (R101) -/

/-- How many of the low bits of op11 are no part of a class's opcode. -/
def OpClass.operandBits : OpClass → Nat
  | .b => 5
  | .bCond | .cbz | .cbnz => 3
  | .addsImm | .subsImm | .addImm | .subImm | .movz => 2
  | .shift => 1
  | .hlt | .addsReg | .subsReg | .adcs | .addReg | .subReg | .ands | .eor | .orr | .mul | .br | .stur | .sturb | .sturh
  | .ldur | .ldurb | .ldurh => 0

/-- What the other bits of op11 hold in a word of the class. -/
def OpClass.opcode : OpClass → Nat
  | .hlt => 0x6A2 | .addsReg => 0x558 | .addsImm => 0x162 | .subsReg => 0x758 | .subsImm => 0x1E2 | .adcs => 0x5D0
  | .addReg => 0x458 | .addImm => 0x122 | .subReg => 0x658 | .subImm => 0x1A2 | .ands => 0x750 | .eor => 0x650
  | .orr => 0x550 | .mul => 0x4D8 | .shift => 0x34D | .b => 0x05 | .br => 0x6B0 | .bCond => 0x54 | .cbz => 0xB4
  | .cbnz => 0xB5 | .movz => 0x1A5 | .stur => 0x7C0 | .sturb => 0x1C0 | .sturh => 0x3C0 | .ldur => 0x7C2
  | .ldurb => 0x1C2 | .ldurh => 0x3C2

/-- The rows of the opcode table hold the words with the opcode of their class. -/
theorem opTable_opcode : ∀ row ∈ opTable, row.lo.toNat = row.cls.opcode * 2 ^ row.cls.operandBits ∧
    row.hi.toNat + 1 = (row.cls.opcode + 1) * 2 ^ row.cls.operandBits := by decide

/-- Every op11 value with the opcode of a class is looked up as that class. -/
theorem classOfOp11_opcode (cls : OpClass) : ∀ k : Fin (2 ^ cls.operandBits),
    classOfOp11 (BitVec.ofNat 11 (cls.opcode * 2 ^ cls.operandBits + k)) = some cls := by
  cases cls <;> decide

theorem opcode_of_lookupOp11 {op : BitVec 11} {cls : OpClass} (h : lookupOp11 op = some cls) :
    op.toNat / 2 ^ cls.operandBits = cls.opcode := by
  obtain ⟨row, hfind, rfl⟩ := Option.map_eq_some_iff.mp h
  obtain ⟨hlo, hhi⟩ := opTable_opcode row (List.mem_of_find?_eq_some hfind)
  have hrange : row.lo.toNat ≤ op.toNat ∧ op.toNat ≤ row.hi.toNat := by
    simpa [BitVec.le_def] using List.find?_some hfind
  exact Nat.div_eq_of_lt_le (by omega) (by omega)

theorem classOfOp11_eq_some_iff (op : BitVec 11) (cls : OpClass) :
    classOfOp11 op = some cls ↔ op.toNat / 2 ^ cls.operandBits = cls.opcode := by
  constructor
  · unfold classOfOp11
    split
    · rintro ⟨⟩
      assumption
    · exact opcode_of_lookupOp11
  · intro h
    refine classOfOp11_of_range _ _ cls op (classOfOp11_opcode cls) ?_
    have hpos := Nat.two_pow_pos cls.operandBits
    have := (Nat.div_eq_iff hpos).mp h
    omega

/-- The opcode field of a word, if the word is of the class. -/
def OpClass.opField (cls : OpClass) (w : Word32) : BitVec (11 - cls.operandBits) :=
  w.extractLsb' (21 + cls.operandBits) (11 - cls.operandBits)

theorem toNat_opField (cls : OpClass) (w : Word32) :
    (cls.opField w).toNat = (fieldOp11 w).toNat / 2 ^ cls.operandBits := by
  have hle : cls.operandBits ≤ 11 := by cases cls <;> decide
  have hsplit : 2 ^ 11 = 2 ^ cls.operandBits * 2 ^ (11 - cls.operandBits) := by rw [← pow_add]; congr 1; omega
  rw [OpClass.opField, toNat_field, toNat_fieldOp11, pow_add, ← Nat.div_div_eq_div_mul, hsplit,
    Nat.mod_mul_right_div_self]

/-- A word is of a class exactly when its opcode field holds the class's opcode (R100, R101). -/
theorem classify_eq_some_iff (w : Word32) (cls : OpClass) :
    classify w = some cls ↔ (cls.opField w).toNat = cls.opcode := by
  rw [classify_eq, classOfOp11_eq_some_iff, toNat_opField]

/-- The words of a class have the same opcode field, and no other word has it. -/
theorem classify_eq_some_iff_opField_eq {w' : Word32} {cls : OpClass} (h' : classify w' = some cls) (w : Word32) :
    classify w = some cls ↔ cls.opField w = cls.opField w' := by
  rw [classify_eq_some_iff, ← (classify_eq_some_iff w' cls).mp h', BitVec.toNat_inj]

/-! ## The fields a class reads (R91, R105) -/

/-- The operand fields of a class: lowest bit and width. -/
def OpClass.operandFields : OpClass → List (Nat × Nat)
  | .hlt => []
  | .addsReg | .subsReg | .adcs | .addReg | .subReg | .ands | .eor | .orr | .mul => [(0, 5), (5, 5), (16, 5)]
  | .addsImm | .subsImm | .addImm | .subImm => [(0, 5), (5, 5), (10, 12), (22, 2)]
  | .shift => [(0, 5), (5, 5), (16, 6), (10, 6)]
  | .b => [(0, 26)]
  | .br => [(5, 5)]
  | .bCond => [(5, 19), (0, 4)]
  | .cbz | .cbnz => [(0, 5), (5, 19)]
  | .movz => [(0, 5), (5, 16), (21, 2)]
  | .stur | .sturb | .sturh | .ldur | .ldurb | .ldurh => [(0, 5), (5, 5), (12, 9)]

/-- The opcode field and the operand fields of a class. -/
def OpClass.fields (cls : OpClass) : List (Nat × Nat) :=
  (21 + cls.operandBits, 11 - cls.operandBits) :: cls.operandFields

/-- The bits read for an instruction are the fields of its class. -/
theorem readBits_eq_bitsOf (i : Instr) : Claims.readBits i = bitsOf (opClassOf i).fields := by
  cases i <;> simp only [Claims.readBits, opClassOf] <;> decide

/-- A word of the shift class is LSR or LSL with the same operands (R186, R187). -/
theorem instrOfClass_shift (r : ShiftReading) (w : Word32) : instrOfClass r w .shift =
    if shiftIsLsr r (fieldImmr w) (fieldImms w) then .lsr (fieldRd w) (fieldRn w) (fieldImmr w) (fieldImms w)
    else .lsl (fieldRd w) (fieldRn w) (fieldImmr w) (fieldImms w) := rfl

theorem opClassOf_instrOfClass (r : ShiftReading) (w : Word32) (cls : OpClass) :
    opClassOf (instrOfClass r w cls) = cls := by
  cases cls with
  | shift => rw [instrOfClass_shift]; split <;> rfl
  | _ => rfl

theorem regField_inj (w w' : Word32) (lo : Nat) :
    regField w lo = regField w' lo ↔ w.extractLsb' lo 5 = w'.extractLsb' lo 5 := by
  unfold regField
  exact BitVec.toFin_inj

theorem condOfCode_injective : Function.Injective condOfCode :=
  Function.LeftInverse.injective codeOfCond_condOfCode

/-- The selectors the opcode table lets through are told apart (R97). -/
theorem immShiftOf_inj {a b : BitVec 2} (ha : a.toNat < 2) (hb : b.toNat < 2) :
    immShiftOf a = immShiftOf b ↔ a = b := by
  revert a b; decide

/-- In a class whose opcode field ends in the high bit of `sh`, and with that bit 0, the selector is 00 or 01 (R97). -/
theorem fieldSh_lt_two {w : Word32} {cls : OpClass} (h : classify w = some cls) (hbits : cls.operandBits = 2)
    (heven : cls.opcode % 2 = 0) : (fieldSh w).toNat < 2 := by
  have hop := (classify_eq_some_iff w cls).mp h
  rw [toNat_opField, toNat_fieldOp11, hbits] at hop
  rw [fieldSh, toNat_field]
  omega

/-- Two words of a class stand for the same instruction exactly when their operand fields are equal (R91, R105). -/
theorem instrOfClass_eq_iff (r : ShiftReading) {w w' : Word32} {cls : OpClass} (h : classify w = some cls)
    (h' : classify w' = some cls) : instrOfClass r w cls = instrOfClass r w' cls ↔
      ∀ f ∈ cls.operandFields, w.extractLsb' f.1 f.2 = w'.extractLsb' f.1 f.2 := by
  cases cls with
  | addsImm | subsImm | addImm | subImm =>
    have hsh := immShiftOf_inj (fieldSh_lt_two h rfl rfl) (fieldSh_lt_two h' rfl rfl)
    simp only [instrOfClass, Instr.addsImm.injEq, Instr.subsImm.injEq, Instr.addImm.injEq, Instr.subImm.injEq, hsh]
    simp [OpClass.operandFields, fieldRd, fieldRn, fieldImm12, fieldSh, regField_inj]
  | shift =>
    simp only [OpClass.operandFields, List.forall_mem_cons, instrOfClass_shift]
    constructor
    · intro heq -- an LSR is no LSL, so both words take the same branch
      split at heq <;> split at heq <;> simp_all [fieldRd, fieldRn, fieldImmr, fieldImms, regField_inj]
    · rintro ⟨hrd, hrn, himmr, himms, -⟩
      simp [fieldRd, fieldRn, fieldImmr, fieldImms, regField, hrd, hrn, himmr, himms]
  | bCond =>
    simp [instrOfClass, OpClass.operandFields, fieldImm19, fieldCond, condOfCode_injective.eq_iff]
  | _ =>
    simp [instrOfClass, OpClass.operandFields, fieldRd, fieldRn, fieldRm, fieldImm9, fieldImm16, fieldImm19,
      fieldImm26, fieldHw, regField_inj]

/-! ## The fields of an encoded word (R93) -/

/-- A field read as a number, as `regField_eq` says it of registers. -/
theorem field_eq {w : Word32} {lo n : Nat} {v : BitVec n} (h : w.toNat / 2 ^ lo % 2 ^ n = v.toNat) :
    w.extractLsb' lo n = v :=
  BitVec.eq_of_toNat_eq ((toNat_field w lo n).trans h)

section
variable (rd rn rm : Reg)

@[simp] theorem fields_encodeR (op11 : BitVec 11) (x6 : BitVec 6) :
    fieldRd (encodeR op11 rm x6 rn rd) = rd ∧ fieldRn (encodeR op11 rm x6 rn rd) = rn ∧
    fieldRm (encodeR op11 rm x6 rn rd) = rm := by
  refine ⟨regField_eq _ _ _ ?_, regField_eq _ _ _ ?_, regField_eq _ _ _ ?_⟩ <;> rw [toNat_encodeR] <;> omega

@[simp] theorem fields_encodeI (op8 : BitVec 8) (sh : ImmShift) (imm12 : BitVec 12) :
    fieldRd (encodeI op8 sh imm12 rn rd) = rd ∧ fieldRn (encodeI op8 sh imm12 rn rd) = rn ∧
    fieldImm12 (encodeI op8 sh imm12 rn rd) = imm12 ∧ fieldSh (encodeI op8 sh imm12 rn rd) = shOfImmShift sh := by
  refine ⟨regField_eq _ _ _ ?_, regField_eq _ _ _ ?_, field_eq ?_, field_eq ?_⟩ <;>
    rw [toNat_encodeI] <;> omega

@[simp] theorem fields_encodeBF (op10 : BitVec 10) (immr imms : BitVec 6) :
    fieldRd (encodeBF op10 immr imms rn rd) = rd ∧ fieldRn (encodeBF op10 immr imms rn rd) = rn ∧
    fieldImmr (encodeBF op10 immr imms rn rd) = immr ∧ fieldImms (encodeBF op10 immr imms rn rd) = imms := by
  refine ⟨regField_eq _ _ _ ?_, regField_eq _ _ _ ?_, field_eq ?_, field_eq ?_⟩ <;>
    rw [toNat_encodeBF] <;> omega

@[simp] theorem fields_encodeD (op11 : BitVec 11) (imm9 : BitVec 9) :
    fieldRd (encodeD op11 imm9 rn rd) = rd ∧ fieldRn (encodeD op11 imm9 rn rd) = rn ∧
    fieldImm9 (encodeD op11 imm9 rn rd) = imm9 := by
  refine ⟨regField_eq _ _ _ ?_, regField_eq _ _ _ ?_, field_eq ?_⟩ <;> rw [toNat_encodeD] <;> omega

@[simp] theorem fields_encodeB (op6 : BitVec 6) (imm26 : BitVec 26) : fieldImm26 (encodeB op6 imm26) = imm26 := by
  apply field_eq
  rw [toNat_encodeB]
  omega

@[simp] theorem fields_encodeCB (op8 : BitVec 8) (imm19 : BitVec 19) :
    fieldRd (encodeCB op8 imm19 rd) = rd ∧ fieldImm19 (encodeCB op8 imm19 rd) = imm19 := by
  refine ⟨regField_eq _ _ _ ?_, field_eq ?_⟩ <;> rw [toNat_encodeCB] <;> omega

@[simp] theorem fields_encodeCBc (op8 : BitVec 8) (imm19 : BitVec 19) (cond : Cond) :
    fieldImm19 (encodeCBc op8 imm19 cond) = imm19 ∧ fieldCond (encodeCBc op8 imm19 cond) = codeOfCond cond := by
  refine ⟨field_eq ?_, field_eq ?_⟩ <;> rw [toNat_encodeCBc] <;> omega

@[simp] theorem fields_encodeIW (op9 : BitVec 9) (hw : BitVec 2) (imm16 : BitVec 16) :
    fieldRd (encodeIW op9 hw imm16 rd) = rd ∧ fieldImm16 (encodeIW op9 hw imm16 rd) = imm16 ∧
    fieldHw (encodeIW op9 hw imm16 rd) = hw := by
  refine ⟨regField_eq _ _ _ ?_, field_eq ?_, field_eq ?_⟩ <;>
    rw [toNat_encodeIW] <;> omega

end

/-- The encoded word of every instruction is looked up as its own class. -/
theorem classify_encode (i : Instr) : classify (encode i) = some (opClassOf i) := by
  cases i with
  | hlt => exact Laws.EncodedClass.hlt
  | addsReg => exact Laws.EncodedClass.addsReg ..
  | addsImm => exact Laws.EncodedClass.addsImm ..
  | subsReg => exact Laws.EncodedClass.subsReg ..
  | subsImm => exact Laws.EncodedClass.subsImm ..
  | adcs => exact Laws.EncodedClass.adcs ..
  | addReg => exact Laws.EncodedClass.addReg ..
  | addImm => exact Laws.EncodedClass.addImm ..
  | subReg => exact Laws.EncodedClass.subReg ..
  | subImm => exact Laws.EncodedClass.subImm ..
  | ands => exact Laws.EncodedClass.ands ..
  | eor => exact Laws.EncodedClass.eor ..
  | orr => exact Laws.EncodedClass.orr ..
  | mul => exact Laws.EncodedClass.mul ..
  | lsl => exact Laws.EncodedClass.lsl ..
  | lsr => exact Laws.EncodedClass.lsr ..
  | b => exact Laws.EncodedClass.b ..
  | br => exact Laws.EncodedClass.br ..
  | bCond => exact Laws.EncodedClass.bCond ..
  | cbz => exact Laws.EncodedClass.cbz ..
  | cbnz => exact Laws.EncodedClass.cbnz ..
  | movz => exact Laws.EncodedClass.movz ..
  | stur => exact Laws.EncodedClass.stur ..
  | sturb => exact Laws.EncodedClass.sturb ..
  | sturh => exact Laws.EncodedClass.sturh ..
  | ldur => exact Laws.EncodedClass.ldur ..
  | ldurb => exact Laws.EncodedClass.ldurb ..
  | ldurh => exact Laws.EncodedClass.ldurh ..

/-- Reading the fields of an encoded word gives the operands back (R93). -/
theorem instrOfClass_encode (r : ShiftReading) (i : Instr) (hwf : i.wellFormed r = true) :
    instrOfClass r (encode i) (opClassOf i) = i := by
  cases i with
  | lsl | lsr =>
    simp only [Instr.wellFormed, Bool.not_eq_true'] at hwf
    simp [instrOfClass, opClassOf, encode, hwf]
  | bCond imm19 cond => simp [instrOfClass, opClassOf, encode, condOfCode_codeOfCond cond hwf]
  | _ => simp [instrOfClass, opClassOf, encode, immShiftOf_shOfImmShift]

/-! ## Decode, for every word (R100) -/

theorem instrOfClass_wellFormed (r : ShiftReading) (w : Word32) (cls : OpClass) :
    (instrOfClass r w cls).wellFormed r = true := by
  cases cls with
  | shift =>
    rw [instrOfClass_shift]
    cases hlsr : shiftIsLsr r (fieldImmr w) (fieldImms w) <;> simp [Instr.wellFormed, hlsr]
  | bCond => exact condOfCode_wellFormed _
  | _ => rfl

theorem decode_eq_ok_iff_classify (r : ShiftReading) (w : Word32) (i : Instr) :
    decode r w = .ok i ↔ ∃ cls, classify w = some cls ∧ instrOfClass r w cls = i := by
  unfold decode
  cases classify w <;> simp

theorem decode_eq_error_of_classify (r : ShiftReading) (w : Word32) (h : classify w = none) :
    decode r w = .error (.unrecognisedOpcode w) := by
  simp [decode, h]

/-- A word decodes to an instruction exactly when the instruction is well-formed and its encoding agrees with the word
on the bits read for it. -/
theorem decode_eq_ok_iff (r : ShiftReading) (w : Word32) (i : Instr) :
    decode r w = .ok i ↔ i.wellFormed r = true ∧ encode i &&& Claims.readBits i = w &&& Claims.readBits i := by
  have henc := classify_encode i
  rw [decode_eq_ok_iff_classify, readBits_eq_bitsOf, and_bitsOf_eq_iff, OpClass.fields, List.forall_mem_cons]
  constructor
  · rintro ⟨cls, hcls, hi⟩
    obtain rfl : opClassOf i = cls := hi ▸ opClassOf_instrOfClass r w cls
    have hwf : i.wellFormed r = true := hi ▸ instrOfClass_wellFormed r w _
    exact ⟨hwf, (classify_eq_some_iff_opField_eq hcls _).mp henc,
      (instrOfClass_eq_iff r henc hcls).mp ((instrOfClass_encode r i hwf).trans hi.symm)⟩
  · rintro ⟨hwf, hop, hoperands⟩
    have hcls := (classify_eq_some_iff_opField_eq henc w).mpr hop.symm
    have hsame := (instrOfClass_eq_iff r henc hcls).mpr hoperands
    exact ⟨opClassOf i, hcls, hsame.symm.trans (instrOfClass_encode r i hwf)⟩

/-! ## The rows of R101 as match and mask -/

/-- The classes, in the order of R101. -/
def allClasses : List OpClass :=
  [.hlt, .addsReg, .addsImm, .subsReg, .subsImm, .adcs, .addReg, .addImm, .subReg, .subImm, .ands, .eor, .orr, .mul,
   .shift, .b, .br, .bCond, .cbz, .cbnz, .movz, .stur, .sturb, .sturh, .ldur, .ldurb, .ldurh]

theorem mem_allClasses (cls : OpClass) : cls ∈ allClasses := by
  cases cls <;> decide

/-- The word of a class with nothing but its opcode: the match of its row. -/
def OpClass.matchWord (cls : OpClass) : Word32 := BitVec.ofNat 32 cls.opcode <<< (21 + cls.operandBits)

/-- The mask of a class's opcode field: the mask of its row. -/
def OpClass.maskWord (cls : OpClass) : Word32 := bitsAt (21 + cls.operandBits) (11 - cls.operandBits)

theorem tableRows_eq : Claims.tableRows = allClasses.map fun cls => (cls.matchWord, cls.maskWord) := by decide

theorem classify_matchWord (cls : OpClass) : classify cls.matchWord = some cls := by
  cases cls <;> decide

theorem matchWord_and_maskWord (cls : OpClass) : cls.matchWord &&& cls.maskWord = cls.matchWord := by
  cases cls <;> decide

/-- A word is of a class exactly when the match and mask of the class's row hold (R101). -/
theorem and_maskWord_eq_iff (w : Word32) (cls : OpClass) :
    w &&& cls.maskWord = cls.matchWord ↔ classify w = some cls := by
  rw [classify_eq_some_iff_opField_eq (classify_matchWord cls) w]
  calc w &&& cls.maskWord = cls.matchWord
      ↔ w &&& cls.maskWord = cls.matchWord &&& cls.maskWord := by rw [matchWord_and_maskWord]
    _ ↔ cls.opField w = cls.opField cls.matchWord := and_bitsAt_eq_iff ..

/-- The table as match and mask holds the words that have a class. -/
theorem inTable_iff (w : Word32) : Claims.InTable w ↔ ∃ cls, classify w = some cls := by
  simp [Claims.InTable, tableRows_eq, mem_allClasses, and_maskWord_eq_iff]

end Sys2Proof

namespace Sys2Proof.Machine

/-! ## Offsets (R94 to R96) -/

/-- Sign extension and a shift by 2 is a signed multiplication by 4 (R95, R96). -/
theorem signExtend_shiftLeft_two {n : Nat} (imm : BitVec n) :
    imm.signExtend 64 <<< 2 = BitVec.ofInt 64 (4 * imm.toInt) := by
  rw [BitVec.shiftLeft_eq_mul_twoPow, Int.mul_comm, BitVec.ofInt_mul]
  rfl

/-- A word-scaled displacement that fits its field is what the field decodes to. -/
theorem signExtend_shiftLeft_two_ofInt {n : Nat} (hn : 0 < n) {d : Int} (hd : d % 4 = 0)
    (hlo : -2 ^ (n - 1) ≤ d / 4) (hhi : d / 4 < 2 ^ (n - 1)) :
    (BitVec.ofInt n (d / 4)).signExtend 64 <<< 2 = BitVec.ofInt 64 d := by
  rw [signExtend_shiftLeft_two, BitVec.toInt_ofInt_eq_self hn hlo hhi]
  congr 1
  omega

/-! ## Shifts (R188, R189) -/

theorem exec_lsl_entry (s : State) {d : Reg} (n : Reg) (immr imms : BitVec 6) (hd : d ≠ xzr) :
    ∃ t, exec (.lsl d n immr imms) s = .next t ∧
      t.next.entry d = readReg s n <<< lslAmount s.config.shiftReading immr imms :=
  ⟨_, writeSettingZN_eq .., by simp [Effect.apply_next_entry, Effect.resultZN, Effect.result, hd]⟩

theorem exec_lsr_entry (s : State) {d : Reg} (n : Reg) (immr imms : BitVec 6) (hd : d ≠ xzr) :
    ∃ t, exec (.lsr d n immr imms) s = .next t ∧
      t.next.entry d = readReg s n >>> lsrAmount s.config.shiftReading immr imms :=
  ⟨_, writeSettingZN_eq .., by simp [Effect.apply_next_entry, Effect.resultZN, Effect.result, hd]⟩

end Sys2Proof.Machine

namespace Sys2Proof.Proofs

open Sys2Proof.Machine Sys2Proof.Claims

/-- Settles O1: a word agrees with itself. -/
theorem encodeThenDecodeGivesTheInstruction : Obligations.EncodeThenDecodeGivesTheInstruction :=
  fun r i hwf => (decode_eq_ok_iff r (encode i) i).mpr ⟨hwf, rfl⟩

/-- Settles O2: what decoding to an instruction means, read from left to right. -/
theorem decodedInstructionKeepsEveryReadBit : Obligations.DecodedInstructionKeepsEveryReadBit :=
  fun r w i hdecode => (decode_eq_ok_iff r w i).mp hdecode

/-- Settles O3: both words agree with the encoding of the instruction. -/
theorem unreadBitsAreIgnored : Obligations.UnreadBitsAreIgnored := by
  intro r w w' i hdecode hagree
  obtain ⟨hwf, hkept⟩ := (decode_eq_ok_iff r w i).mp hdecode
  exact (decode_eq_ok_iff r w' i).mpr ⟨hwf, hkept.trans hagree⟩

/-- Settles O4: the words in the table are those that have a class. -/
theorem decodeSucceedsExactlyOnTheOpcodeTable : Obligations.DecodeSucceedsExactlyOnTheOpcodeTable := by
  intro r w
  rw [inTable_iff]
  constructor
  · rintro ⟨cls, hcls⟩
    exact ⟨_, (decode_eq_ok_iff_classify ..).mpr ⟨cls, hcls, rfl⟩⟩
  · intro hnone
    exact decode_eq_error_of_classify r w (by simpa [Option.eq_none_iff_forall_ne_some] using hnone)

/-- Settles O7: both offsets are the sign-extended field times 4, and each displacement fits its field. -/
theorem branchOffsetRoundTrip : Obligations.BranchOffsetRoundTrip := by
  refine ⟨fun w => signExtend_shiftLeft_two _, fun d hd hlo hhi => ?_, fun d hd hlo hhi => ?_⟩ <;>
    exact signExtend_shiftLeft_two_ofInt (by decide) hd (by norm_num; omega) (by norm_num; omega)

/-- The assembler's word of a right shift decodes to it: it has imms = 63 (R106, R186). -/
theorem decode_encode_lsr_imm (d n : Reg) (immr : BitVec 6) :
    decode .a64 (encode (.lsr d n immr 63)) = .ok (.lsr d n immr 63) :=
  encodeThenDecodeGivesTheInstruction _ _ rfl

/-- Settles O38. The word of `LSL #0` has imms = 63, so it is the word of `LSR #0`. -/
theorem assemblerShiftWordsShiftByTheirAmount : Obligations.AssemblerShiftWordsShiftByTheirAmount := by
  intro d n k s hk hd hreading
  have hright : ∃ i t, decode .a64 (encode (.lsr d n (BitVec.ofNat 6 k) 63)) = .ok i ∧ exec i s = .next t ∧
      t.next.entry d = readReg s n >>> k := by
    obtain ⟨t, hexec, hentry⟩ := exec_lsr_entry s n (BitVec.ofNat 6 k) 63 hd
    have hamount : lsrAmount s.config.shiftReading (BitVec.ofNat 6 k) 63 = k := by
      simp [hreading, lsrAmount]; omega
    exact ⟨_, t, decode_encode_lsr_imm .., hexec, by rw [hentry, hamount]⟩
  refine ⟨?_, hright⟩
  by_cases hzero : k = 0
  · subst hzero
    simpa [encode] using hright
  · have hwf : Instr.wellFormed .a64
        (.lsl d n (BitVec.ofNat 6 ((64 - k) % 64)) (BitVec.ofNat 6 (63 - k))) = true := by
      simp [Instr.wellFormed, shiftIsLsr, ← BitVec.toNat_inj]; omega
    obtain ⟨t, hexec, hentry⟩ :=
      exec_lsl_entry s n (BitVec.ofNat 6 ((64 - k) % 64)) (BitVec.ofNat 6 (63 - k)) hd
    have hamount : lslAmount s.config.shiftReading (BitVec.ofNat 6 ((64 - k) % 64)) (BitVec.ofNat 6 (63 - k)) = k := by
      simp [hreading, lslAmount]; omega
    exact ⟨_, t, encodeThenDecodeGivesTheInstruction _ _ hwf, hexec, by rw [hentry, hamount]⟩

/-- Settles O6: below bit 9 the bit of the field, from there on its sign bit. -/
theorem loadStoreOffsetIsSignExtendedField : Obligations.LoadStoreOffsetIsSignExtendedField := by
  intro w k hk
  rw [off9, BitVec.getLsbD_signExtend]
  by_cases hfield : k < 9
  · simp [fieldImm9, hk, hfield, show min k 8 = k by omega]
  · simp [fieldImm9, hk, hfield, BitVec.msb_eq_getLsbD_last, show min k 8 = 8 by omega]

end Sys2Proof.Proofs

/-! # Words of no instruction, and the words of the spec's examples (40_system.md, 30_encoding.md) -/

namespace Sys2Proof

theorem decode_of_encode_eq {r : ShiftReading} {i : Instr} {w : Word32} (hwf : i.wellFormed r = true)
    (hw : encode i = w) : decode r w = .ok i :=
  (decode_eq_ok_iff r w i).mpr ⟨hwf, by rw [hw]⟩

/-- The word of the A64 NOP matches no row of R101 (R105). -/
theorem not_inTable_nop : ¬ Claims.InTable 0xD503201F := by
  unfold Claims.InTable
  decide

end Sys2Proof

namespace Sys2Proof.Machine

/-- The step of a word of the class UNKNOWN, up to its commit (R100, R132). -/
theorem step_of_unrecognised {s : State} {w : Word32} {e : DecodeReject} (hr : s.runBit = true)
    (hf : fetchWord s = .ok w) (hdecode : decode s.config.shiftReading w = .error e) :
    step s = .next (commit (advancePc (emitDiag .unknownOpcode (afterFetch w s)))) := by
  rw [step_of_fetched hr hf, execWord, afterFetch_config, hdecode]
  rfl

/-- What that step leaves: the pc is the one part of both copies that differs, and the trace grows by two events. -/
theorem commit_advancePc_diag_afterFetch (k : Diagnostic) (w : Word32) (s : State) :
    commit (advancePc (emitDiag k (afterFetch w s))) = { s with
      current := { s.current with pc := s.current.pc + 4 }
      next := { s.current with pc := s.current.pc + 4 }
      trace := s.trace ++ [.fetch s.current.pc w, .diag k] } := by
  have htrace : (s.trace ++ [.fetch s.current.pc w]) ++ [.diag k] = s.trace ++ [.fetch s.current.pc w, .diag k] :=
    List.append_assoc ..
  rw [← htrace]
  rfl

end Sys2Proof.Machine

namespace Sys2Proof.Proofs

open Sys2Proof.Machine Sys2Proof.Claims

/-- Settles O14: the fetch succeeds, the decoder finds no row, and the handler of the class UNKNOWN writes only the pc
and the trace. -/
theorem unrecognisedWordAdvancesPcOnly : Obligations.UnrecognisedWordAdvancesPcOnly := by
  intro s hr halign hmapped hnone
  have hf : fetchWord s = .ok (s.mem.readWord s.current.pc) := (fetchWord_eq_ok_iff ..).mpr ⟨halign, hmapped, rfl⟩
  obtain ⟨-, hreject⟩ := decodeSucceedsExactlyOnTheOpcodeTable s.config.shiftReading (s.mem.readWord s.current.pc)
  rw [step_of_unrecognised hr hf (hreject hnone), commit_advancePc_diag_afterFetch]

/-- Settles O5: each word is the encoding of its instruction, and the NOP is in no row of the table. -/
theorem wordsOfTheSpecDecode : Obligations.WordsOfTheSpecDecode := by
  obtain ⟨-, hreject⟩ := decodeSucceedsExactlyOnTheOpcodeTable .a64 0xD503201F
  refine ⟨?hlt, ?addsReg, ?subsImm, ?lsl, ?lsr, ?bCond, ?movz, ?stur, ?ldurh, hreject not_inTable_nop⟩
  all_goals exact decode_of_encode_eq (by decide) (by decide)

end Sys2Proof.Proofs

/-! # Arithmetic and its flags, and the results that set none (41_arith.md, 42_logic_mul_shift.md R181 to R183) -/

namespace Sys2Proof

/-! ## Ranges of op11 values (R100, R101) -/

/-- The words of a row of the opcode table decode to the instruction of its class. -/
theorem decodesAs_of_row {cls : OpClass} {lo hi : BitVec 11} {i : Word32 → Instr} (hrow : ⟨cls, lo, hi⟩ ∈ opTable)
    (hinstr : ∀ r w, classify w = some cls → instrOfClass r w cls = i w) : Claims.DecodesAs lo hi i := by
  intro r w (hge : lo.toNat ≤ (fieldOp11 w).toNat) (hle : (fieldOp11 w).toNat ≤ hi.toNat)
  obtain ⟨hlo, hhi⟩ := opTable_opcode _ hrow
  have hclass : classify w = some cls := by
    rw [classify_eq, classOfOp11_eq_some_iff]
    exact Nat.div_eq_of_lt_le (hlo ▸ hge) (hhi ▸ Nat.lt_succ_of_le hle)
  exact (decode_eq_ok_iff_classify r w _).mpr ⟨cls, hclass, hinstr r w hclass⟩

/-- Words whose op11 meets the opcode of no class are in no row. -/
theorem decodesToNone_of_outside {lo hi : BitVec 11} (hout : ∀ cls ∈ allClasses,
    hi.toNat < cls.opcode * 2 ^ cls.operandBits ∨ (cls.opcode + 1) * 2 ^ cls.operandBits ≤ lo.toNat) :
    Claims.DecodesToNone lo hi := by
  intro r w (hge : lo.toNat ≤ (fieldOp11 w).toNat) (hle : (fieldOp11 w).toNat ≤ hi.toNat)
  refine decode_eq_error_of_classify r w (Option.eq_none_iff_forall_ne_some.mpr fun cls hclass => ?_)
  rw [classify_eq, classOfOp11_eq_some_iff, Nat.div_eq_iff (Nat.two_pow_pos _)] at hclass
  have hpos := Nat.two_pow_pos cls.operandBits
  have hout := hout cls (mem_allClasses cls)
  rw [Nat.add_one_mul] at hout
  omega

/-- Of the two selectors in the table, 01 is the one with bit 22 set (R97). -/
theorem immShiftOf_fieldSh {w : Word32} {cls : OpClass} (h : classify w = some cls) (hbits : cls.operandBits = 2)
    (heven : cls.opcode % 2 = 0) : immShiftOf (fieldSh w) = Claims.shOf w := by
  have hsel : ∀ sh : BitVec 2, sh.toNat < 2 → immShiftOf sh = if sh.getLsbD 0 then .lsl12 else .lsl0 := by decide
  rw [hsel _ (fieldSh_lt_two h hbits heven), fieldSh, BitVec.getLsbD_extractLsb']
  rfl

/-- The row of an instruction with a shifted immediate: the selector is read off bit 22 (R91, R97). -/
theorem decodesAs_imm {cls : OpClass} {lo hi : BitVec 11} (mk : Reg → Reg → BitVec 12 → ImmShift → Instr)
    (hrow : ⟨cls, lo, hi⟩ ∈ opTable) (hbits : cls.operandBits = 2) (heven : cls.opcode % 2 = 0)
    (hmk : ∀ r w, instrOfClass r w cls = mk (fieldRd w) (fieldRn w) (fieldImm12 w) (immShiftOf (fieldSh w))) :
    Claims.DecodesAs lo hi (fun w => mk (Claims.rd w) (Claims.rn w) (Claims.imm12 w) (Claims.shOf w)) :=
  decodesAs_of_row hrow fun r w hclass => by rw [hmk, immShiftOf_fieldSh hclass hbits heven]; rfl

end Sys2Proof

namespace Sys2Proof.Machine

/-- The immediate, shifted or not, as the number of R97. -/
theorem arithImm_eq_immv (imm12 : BitVec 12) (sh : ImmShift) : arithImm imm12 sh = Claims.immv imm12 sh := by
  apply BitVec.eq_of_toNat_eq
  cases sh with
  | lsl0 => simp [arithImm, Claims.immv]
  | lsl12 => simp [arithImm, Claims.immv, Nat.shiftLeft_eq]

/-! ## The flags (R140 to R143) -/

theorem msb_iff_toInt_neg (r : Word) : r.msb = true ↔ r.toInt < 0 := by
  rw [BitVec.msb_eq_toInt, decide_eq_true_iff]

/-- Z and N of any flags computed as R140 says. -/
theorem znFlags_of_result {f : Flags} {r : Word} (hz : f.z = (r == 0)) (hn : f.n = r.msb) : Claims.ZNFlags f r :=
  ⟨by rw [hz, beq_iff_eq], by rw [hn, msb_iff_toInt_neg]⟩

theorem addFlags_flagsAdd (a b r : Word) : Claims.AddFlags (flagsAdd a b r) a b r :=
  ⟨znFlags_of_result rfl rfl, decide_eq_true_iff, BitVec.msb_eq_getLsbD_last ((a ^^^ r) &&& (b ^^^ r))⟩

theorem subFlags_flagsSub (a b r : Word) : Claims.SubFlags (flagsSub a b r) a b r :=
  ⟨znFlags_of_result rfl rfl, decide_eq_true_iff, BitVec.msb_eq_getLsbD_last ((a ^^^ b) &&& (a ^^^ r))⟩

@[simp] theorem toNat_carryIn (cin : Bool) : (carryIn cin).toNat = Claims.carryNat cin := by cases cin <;> rfl
@[simp] theorem toInt_carryIn (cin : Bool) : (carryIn cin).toInt = Claims.carryNat cin := by cases cin <;> rfl

theorem carryNat_le_one (cin : Bool) : Claims.carryNat cin ≤ 1 := by cases cin <;> decide

/-- The signed 64-bit range. -/
def FitsSigned (x : Int) : Prop := -(2 ^ 63) ≤ x ∧ x ≤ 2 ^ 63 - 1

theorem flagsAdcsExact_c_iff (a b : Word) (cin : Bool) (r : Word) :
    (flagsAdcsExact a b cin r).c = true ↔ 2 ^ 64 ≤ a.toNat + b.toNat + Claims.carryNat cin := by
  rw [flagsAdcsExact, decide_eq_true_iff, toNat_carryIn]

theorem flagsAdcsExact_v_iff (a b : Word) (cin : Bool) (r : Word) :
    (flagsAdcsExact a b cin r).v = true ↔ ¬ FitsSigned (a.toInt + b.toInt + Claims.carryNat cin) := by
  rw [flagsAdcsExact, decide_eq_true_iff, toInt_carryIn, FitsSigned]

theorem adcsFlags_flagsAdcs (setting : AdcsCarry) (a b : Word) (cin : Bool) (r : Word) :
    Claims.AdcsFlags setting (flagsAdcs setting a b cin r) a b cin r := by
  cases setting with
  | docFormula => exact addFlags_flagsAdd a b r
  | exact => exact ⟨znFlags_of_result rfl rfl, flagsAdcsExact_c_iff a b cin r, flagsAdcsExact_v_iff a b cin r⟩

/-! ### Signed overflow

An exact result `x` of one addition or subtraction lies in -2^64 to 2^64 - 1, and what reducing it to 64 bits does
when it does not fit is to flip its sign. Each V is a test of this on the signs of the operands and the result. -/

theorem fitsSigned_toInt (a : Word) : FitsSigned a.toInt := by
  have := a.toInt_lt
  have := a.le_toInt
  unfold FitsSigned
  omega

theorem toInt_ofInt_of_fitsSigned {x : Int} (h : FitsSigned x) : (BitVec.ofInt 64 x).toInt = x := by
  obtain ⟨hlo, hhi⟩ := h
  exact BitVec.toInt_ofInt_eq_self (by decide) (by norm_num; omega) (by norm_num; omega)

/-- An exact result that does not fit, and only such a one, changes its sign. -/
theorem not_fitsSigned_iff_sign_flips {x : Int} (hlo : -(2 ^ 64) ≤ x) (hhi : x < 2 ^ 64) :
    ¬ FitsSigned x ↔ ((BitVec.ofInt 64 x).toInt < 0 ↔ 0 ≤ x) := by
  rw [BitVec.toInt_ofInt, Int.bmod_def]
  unfold FitsSigned
  omega

theorem msb_xor_iff (a b : Word) : (a ^^^ b).msb = true ↔ ¬ (a.toInt < 0 ↔ b.toInt < 0) := by
  rw [BitVec.msb_xor, ← msb_iff_toInt_neg, ← msb_iff_toInt_neg]
  cases a.msb <;> cases b.msb <;> decide

/-- A difference of words is the exact difference, reduced. -/
theorem sub_eq_ofInt (a b : Word) : a - b = BitVec.ofInt 64 (a.toInt - b.toInt) :=
  BitVec.eq_of_toInt_eq (by rw [BitVec.toInt_sub, BitVec.toInt_ofInt])

/-- V of an addition, with a carry in or none (R141, R143): both operands differ in sign from the result. -/
theorem flagsAdd_v_iff (a b : Word) (cin : Bool) :
    (flagsAdd a b (a + b + carryIn cin)).v = true ↔ ¬ FitsSigned (a.toInt + b.toInt + Claims.carryNat cin) := by
  have hr : a + b + carryIn cin = BitVec.ofInt 64 (a.toInt + b.toInt + Claims.carryNat cin) := by
    rw [← toInt_carryIn, BitVec.ofInt_add, BitVec.ofInt_add]
    simp only [BitVec.ofInt_toInt]
  obtain ⟨ha, ha'⟩ := fitsSigned_toInt a
  obtain ⟨hb, hb'⟩ := fitsSigned_toInt b
  have hc := carryNat_le_one cin
  have hflip := not_fitsSigned_iff_sign_flips (x := a.toInt + b.toInt + Claims.carryNat cin) (by omega) (by omega)
  rw [← hr] at hflip
  rw [flagsAdd, BitVec.msb_and, Bool.and_eq_true, msb_xor_iff, msb_xor_iff]
  unfold FitsSigned at *
  omega

/-- V of a subtraction (R142): the operands differ in sign, and the first from the result. -/
theorem flagsSub_v_iff (a b : Word) : (flagsSub a b (a - b)).v = true ↔ ¬ FitsSigned (a.toInt - b.toInt) := by
  obtain ⟨ha, ha'⟩ := fitsSigned_toInt a
  obtain ⟨hb, hb'⟩ := fitsSigned_toInt b
  have hflip := not_fitsSigned_iff_sign_flips (x := a.toInt - b.toInt) (by omega) (by omega)
  rw [← sub_eq_ofInt] at hflip
  rw [flagsSub, BitVec.msb_and, Bool.and_eq_true, msb_xor_iff, msb_xor_iff]
  unfold FitsSigned at *
  omega

/-! ### Carry -/

/-- C by the formula of R141 misses the carry exactly when b and a carry in add up to 2^64: the result is then a again. -/
theorem flagsAdd_c_iff (a b : Word) (cin : Bool) : (flagsAdd a b (a + b + carryIn cin)).c = true ↔
    2 ^ 64 ≤ a.toNat + b.toNat + Claims.carryNat cin ∧ b.toNat + Claims.carryNat cin < 2 ^ 64 := by
  have ha := a.isLt
  have hb := b.isLt
  have hc := carryNat_le_one cin
  rw [flagsAdd, decide_eq_true_iff, BitVec.toNat_add, BitVec.toNat_add, toNat_carryIn]
  omega

/-- A subtraction borrows exactly when adding b back goes past 2^64 (R142). -/
theorem flagsSub_c_iff (a b : Word) : (flagsSub a b (a - b)).c = true ↔ (a - b).toNat + b.toNat = a.toNat := by
  have ha := a.isLt
  have hb := b.isLt
  rw [flagsSub, decide_eq_true_iff, BitVec.toNat_sub]
  omega

/-- b and a carry in add up to 2^64 only as all ones and 1. -/
theorem eq_allOnes_and_carry_iff (b : Word) (cin : Bool) :
    b = BitVec.allOnes 64 ∧ cin = true ↔ 2 ^ 64 ≤ b.toNat + Claims.carryNat cin := by
  have hb := b.isLt
  rw [← BitVec.toNat_inj, BitVec.toNat_allOnes]
  cases cin with
  | false => simp [Claims.carryNat]; omega
  | true => simp [Claims.carryNat]; omega

/-! ### The flags of a comparison (R216) -/

theorem flagsSub_z (a b : Word) : (flagsSub a b (a - b)).z = decide (a = b) := by
  rw [Bool.eq_iff_iff, decide_eq_true_iff]
  exact beq_iff_eq.trans sub_eq_zero

/-- A difference that fits has its exact sign. -/
theorem flagsSub_n_of_not_v {a b : Word} (hv : (flagsSub a b (a - b)).v = false) :
    (flagsSub a b (a - b)).n = decide (a.toInt < b.toInt) := by
  have hfits : FitsSigned (a.toInt - b.toInt) := not_not.mp (mt (flagsSub_v_iff a b).mpr (by simp [hv]))
  have hexact : (a - b).toInt = a.toInt - b.toInt := by
    rw [sub_eq_ofInt, toInt_ofInt_of_fitsSigned hfits]
  rw [Bool.eq_iff_iff, decide_eq_true_iff]
  exact (msb_iff_toInt_neg _).trans (by omega)

/-! ## Results -/

theorem addSettingFlags_result (s : State) (rd : Reg) (a b : Word) : ∃ t f, addSettingFlags rd a b s = .next t ∧
    RegisterResult s t rd (a + b) f [] ∧ Claims.AddFlags f a b (a + b) :=
  ⟨_, _, rfl, registerResult_flags .., addFlags_flagsAdd ..⟩

theorem subSettingFlags_result (s : State) (rd : Reg) (a b : Word) : ∃ t f, subSettingFlags rd a b s = .next t ∧
    RegisterResult s t rd (a - b) f [] ∧ Claims.SubFlags f a b (a - b) :=
  ⟨_, _, rfl, registerResult_flags .., subFlags_flagsSub ..⟩

theorem retire_writeReg_result (s : State) (rd : Reg) (v : Word) :
    ∃ t, retire (writeReg rd v s) = .next t ∧ RegisterResult s t rd v s.next.flags [] :=
  ⟨_, rfl, registerResult_noFlags ..⟩

/-- With the whole frame of a register result, index 31 keeps the register file as it is (R32). -/
theorem RegisterResult.registers_of_xzr {s t : State} {v : Word} {f : Flags} {events : List PortEvent}
    (h : RegisterResult s t xzr v f events) : t.next.registers = s.next.registers :=
  Vector.ext fun j hj => h.discarded rfl ⟨j, hj⟩

/-- CMN (R151). -/
theorem addSettingFlags_xzr (s : State) (a b : Word) : ∃ t, addSettingFlags xzr a b s = .next t ∧
    t.next.registers = s.next.registers ∧ t.next.pc = s.current.pc + 4 ∧ Claims.AddFlags t.next.flags a b (a + b) := by
  obtain ⟨t, f, hnext, hresult, hflags⟩ := addSettingFlags_result s xzr a b
  exact ⟨t, hnext, hresult.registers_of_xzr, hresult.stepped.pc, hresult.flags ▸ hflags⟩

/-- CMP (R150). -/
theorem subSettingFlags_xzr (s : State) (a b : Word) : ∃ t, subSettingFlags xzr a b s = .next t ∧
    t.next.registers = s.next.registers ∧ t.next.pc = s.current.pc + 4 ∧ Claims.SubFlags t.next.flags a b (a - b) := by
  obtain ⟨t, f, hnext, hresult, hflags⟩ := subSettingFlags_result s xzr a b
  exact ⟨t, hnext, hresult.registers_of_xzr, hresult.stepped.pc, hresult.flags ▸ hflags⟩

/-- The sum with a carry in, as a number modulo 2^64 (R152). -/
theorem add_carryIn_eq_ofNat (a b : Word) (cin : Bool) :
    a + b + carryIn cin = BitVec.ofNat 64 (a.toNat + b.toNat + Claims.carryNat cin) := by
  rw [← toNat_carryIn, BitVec.ofNat_add, BitVec.ofNat_add]
  simp only [BitVec.ofNat_toNat, BitVec.setWidth_eq]

/-- The product of the unsigned values, modulo 2^64 (R183). -/
theorem mul_eq_ofNat (a b : Word) : a * b = BitVec.ofNat 64 (a.toNat * b.toNat) := by
  rw [BitVec.ofNat_mul, BitVec.ofNat_toNat, BitVec.ofNat_toNat, BitVec.setWidth_eq, BitVec.setWidth_eq]

/-- The product of the signed values is the same (R144, R183). -/
theorem mul_eq_ofInt (a b : Word) : a * b = BitVec.ofInt 64 (a.toInt * b.toInt) := by
  rw [BitVec.ofInt_mul, BitVec.ofInt_toInt, BitVec.ofInt_toInt]

end Sys2Proof.Machine

namespace Sys2Proof.Proofs

open Sys2Proof.Machine Sys2Proof.Claims

/-- Settles O32: addition is the case of no carry in. -/
theorem carryAndOverflowAreExact : Obligations.CarryAndOverflowAreExact := by
  intro a b
  have hsum : a + b + carryIn false = a + b := BitVec.add_zero _
  have hc := flagsAdd_c_iff a b false
  have hv := flagsAdd_v_iff a b false
  rw [hsum] at hc hv
  refine ⟨?carry, ?overflow, flagsSub_c_iff a b, flagsSub_v_iff a b⟩
  case carry =>
    have hb := b.isLt
    simpa [carryNat, hb] using hc
  case overflow => simpa [carryNat, FitsSigned] using hv

/-- Settles O33: both V test the same sum, and C is missed where b and the carry in add up to 2^64. -/
theorem adcsSettingsDifferOnlyInOneCarry : Obligations.AdcsSettingsDifferOnlyInOneCarry := by
  intro a b cin fdoc fexact
  have hdoc : fdoc.c = true ↔ 2 ^ 64 ≤ a.toNat + b.toNat + carryNat cin ∧ b.toNat + carryNat cin < 2 ^ 64 :=
    flagsAdd_c_iff a b cin
  have hexact : fexact.c = true ↔ 2 ^ 64 ≤ a.toNat + b.toNat + carryNat cin := flagsAdcsExact_c_iff a b cin _
  have hv : fdoc.v = fexact.v :=
    Bool.eq_iff_iff.mpr ((flagsAdd_v_iff a b cin).trans (flagsAdcsExact_v_iff a b cin _).symm)
  have hdiffer : fdoc.c ≠ fexact.c ↔ 2 ^ 64 ≤ b.toNat + carryNat cin := by
    rw [Ne, Bool.eq_iff_iff, hdoc, hexact]
    omega
  refine ⟨rfl, rfl, hv, hdiffer.trans (eq_allOnes_and_carry_iff b cin).symm, fun hne => ?_⟩
  have := hdiffer.mp hne
  exact hexact.mpr (by omega)

/-- Settles O34: without overflow N is the sign of the exact difference. -/
theorem conditionsCompareSignedWithoutOverflow : Obligations.ConditionsCompareSignedWithoutOverflow := by
  intro a b
  have hz := flagsSub_z a b
  refine ⟨by rw [condHolds, hz], by simp [condHolds, hz], fun hv => ?_⟩
  have hn := flagsSub_n_of_not_v hv
  refine ⟨?lt, ?ge, ?gt, ?le⟩
  case lt => rw [condHolds, hn]
  case ge => simp [condHolds, hn, ← decide_not]
  case gt =>
    have hiff : b.toInt < a.toInt ↔ ¬ a = b ∧ ¬ a.toInt < b.toInt := by rw [← BitVec.toInt_inj]; omega
    rw [condHolds, hz, hn, decide_eq_decide.mpr hiff, Bool.decide_and, decide_not, decide_not]
  case le =>
    have hiff : a.toInt ≤ b.toInt ↔ a = b ∨ a.toInt < b.toInt := by rw [← BitVec.toInt_inj]; omega
    simp [condHolds, hz, hn, hiff]

/-- Settles O27: both forms add with the flags of R141, and differ in their second operand alone. -/
theorem addsWritesSumAndFlags : Obligations.AddsWritesSumAndFlags := by
  refine ⟨decodesAs_of_row (cls := .addsReg) (by decide) fun _ _ _ => rfl,
    decodesAs_imm (cls := .addsImm) .addsImm (by decide) rfl rfl fun _ _ => rfl,
    decodesToNone_of_outside (by decide), fun d n m s => addSettingFlags_result .., fun d n imm sh s => ?_⟩
  rw [← arithImm_eq_immv]
  exact addSettingFlags_result ..

/-- Settles O28: both forms subtract with the flags of R142. -/
theorem subsWritesDifferenceAndFlags : Obligations.SubsWritesDifferenceAndFlags := by
  refine ⟨decodesAs_of_row (cls := .subsReg) (by decide) fun _ _ _ => rfl,
    decodesAs_imm (cls := .subsImm) .subsImm (by decide) rfl rfl fun _ _ => rfl,
    decodesToNone_of_outside (by decide), fun d n m s => subSettingFlags_result .., fun d n imm sh s => ?_⟩
  rw [← arithImm_eq_immv]
  exact subSettingFlags_result ..

/-- Settles O29: the results of ADDS and SUBS with entry 31 as the destination. -/
theorem compareWritesFlagsAndNoRegister : Obligations.CompareWritesFlagsAndNoRegister := by
  intro n m imm sh s
  rw [← arithImm_eq_immv]
  exact ⟨subSettingFlags_xzr .., subSettingFlags_xzr .., addSettingFlags_xzr .., addSettingFlags_xzr ..⟩

/-- Settles O30: the operands and the carry in add up to the sum of their values, under either setting. -/
theorem adcsAddsWithCarryUnderBothSettings : Obligations.AdcsAddsWithCarryUnderBothSettings := by
  refine ⟨decodesAs_of_row (cls := .adcs) (by decide) fun _ _ _ => rfl, fun d n m s => ?_⟩
  rw [← add_carryIn_eq_ofNat]
  exact ⟨_, _, rfl, registerResult_flags .., adcsFlags_flagsAdcs ..⟩

/-- Settles O31: each form retires with a register write alone. -/
theorem addAndSubWriteRdAndNoFlag : Obligations.AddAndSubWriteRdAndNoFlag := by
  refine ⟨decodesAs_of_row (cls := .addReg) (by decide) fun _ _ _ => rfl,
    decodesAs_imm (cls := .addImm) .addImm (by decide) rfl rfl fun _ _ => rfl, decodesToNone_of_outside (by decide),
    decodesAs_of_row (cls := .subReg) (by decide) fun _ _ _ => rfl,
    decodesAs_imm (cls := .subImm) .subImm (by decide) rfl rfl fun _ _ => rfl, decodesToNone_of_outside (by decide),
    fun d n m imm sh s => ?_⟩
  rw [← arithImm_eq_immv]
  exact ⟨retire_writeReg_result .., retire_writeReg_result .., retire_writeReg_result .., retire_writeReg_result ..⟩

/-- Settles O36: the product of words is that of their unsigned and of their signed values. -/
theorem eorOrrMulWriteRdAndNoFlag : Obligations.EorOrrMulWriteRdAndNoFlag := by
  refine ⟨decodesAs_of_row (cls := .eor) (by decide) fun _ _ _ => rfl,
    decodesAs_of_row (cls := .orr) (by decide) fun _ _ _ => rfl,
    decodesAs_of_row (cls := .mul) (by decide) fun _ _ _ => rfl,
    fun d n m s => ⟨retire_writeReg_result .., retire_writeReg_result .., ?_⟩⟩
  obtain ⟨t, hnext, hresult⟩ := retire_writeReg_result s d (readReg s n * readReg s m)
  exact ⟨t, hnext, mul_eq_ofNat _ _ ▸ hresult, mul_eq_ofInt _ _ ▸ hresult⟩

end Sys2Proof.Proofs

/-! # ANDS, and the shifts under both readings (42_logic_mul_shift.md R180, R186 to R189) -/

namespace Sys2Proof

/-! ## Words of the shift class -/

/-- The shift class is the pair of op11 values 0x69A and 0x69B (R101). -/
theorem classify_shift_of_op11 {w : Word32} (hlo : 0x69A#11 ≤ fieldOp11 w) (hhi : fieldOp11 w ≤ 0x69B#11) :
    classify w = some .shift := by
  have hge : 0x69A ≤ (fieldOp11 w).toNat := hlo
  have hle : (fieldOp11 w).toNat ≤ 0x69B := hhi
  have hop : (fieldOp11 w).toNat / 2 = 0x34D := by omega
  rw [classify_eq]
  exact (classOfOp11_eq_some_iff _ .shift).mpr hop

theorem shiftIsLsr_a64_iff (immr imms : BitVec 6) : shiftIsLsr .a64 immr imms = true ↔ imms = 63#6 :=
  beq_iff_eq

/-- The top bit of immr is the last bit of op11, which tells 0x69B from 0x69A (R187). -/
theorem shiftIsLsr_literal_iff {w : Word32} (h : classify w = some .shift) (imms : BitVec 6) :
    shiftIsLsr .literal (fieldImmr w) imms = true ↔ ¬ fieldOp11 w = 0x69B#11 := by
  have hop : (fieldOp11 w).toNat / 2 = 0x34D := (classOfOp11_eq_some_iff _ _).mp (classify_eq w ▸ h)
  have himmr : (fieldImmr w).toNat = w.toNat / 2 ^ 16 % 2 ^ 6 := toNat_field ..
  have hlast : (fieldOp11 w).toNat % 2 = (fieldImmr w).toNat / 2 ^ 5 := by rw [toNat_fieldOp11, himmr]; omega
  rw [← BitVec.toNat_inj, shiftIsLsr, BitVec.msb_eq_decide, Bool.not_eq_true',
    decide_eq_false_iff_not, BitVec.toNat_ofNat]
  omega

/-- The decoder leaves the choice between LSR and LSL to the reading (R186, R187). -/
theorem decode_of_shift (r : ShiftReading) {w : Word32} (h : classify w = some .shift) :
    decode r w = .ok (if shiftIsLsr r (fieldImmr w) (fieldImms w)
      then .lsr (fieldRd w) (fieldRn w) (fieldImmr w) (fieldImms w)
      else .lsl (fieldRd w) (fieldRn w) (fieldImmr w) (fieldImms w)) :=
  (decode_eq_ok_iff_classify r w _).mpr ⟨.shift, h, instrOfClass_shift r w⟩

end Sys2Proof

namespace Sys2Proof.Machine

/-! ## The amount and the value of a shift -/

theorem lslAmount_eq_ite (r : ShiftReading) (immr imms : BitVec 6) :
    lslAmount r immr imms = if r = .a64 then 63 - imms.toNat else 63 - immr.toNat := by
  cases r <;> rfl

theorem lsrAmount_eq_ite (r : ShiftReading) (immr imms : BitVec 6) :
    lsrAmount r immr imms = if r = .a64 then immr.toNat else imms.toNat := by
  cases r <;> rfl

/-- A left shift multiplies by a power of 2, modulo 2^64 (R188). -/
theorem shiftLeft_eq_ofNat (x : Word) (a : Nat) : x <<< a = BitVec.ofNat 64 (x.toNat * 2 ^ a) :=
  BitVec.eq_of_toNat_eq (by rw [BitVec.toNat_shiftLeft, Nat.shiftLeft_eq, BitVec.toNat_ofNat])

/-- A right shift that fills with zeros divides by a power of 2 (R189). -/
theorem ushiftRight_eq_ofNat (x : Word) (a : Nat) : x >>> a = BitVec.ofNat 64 (x.toNat / 2 ^ a) := by
  rw [← Nat.shiftRight_eq_div_pow, ← BitVec.toNat_ushiftRight, BitVec.ofNat_toNat, BitVec.setWidth_eq]

/-! ## Results -/

/-- The one result of ANDS, LSL and LSR: Rd, with Z and N from the value and C and V kept (R140). -/
theorem writeSettingZN_result (s : State) (rd : Reg) (v : Word) : ∃ t f, writeSettingZN rd v s = .next t ∧
    RegisterResult s t rd v f [] ∧ Claims.ZNFlags f v ∧ f.c = s.next.flags.c ∧ f.v = s.next.flags.v :=
  ⟨_, _, rfl, registerResult_flags .., znFlags_of_result rfl rfl, rfl, rfl⟩

end Sys2Proof.Machine

namespace Sys2Proof.Proofs

open Sys2Proof.Machine Sys2Proof.Claims

/-- Settles O37: the top bit of immr is the last bit of op11, so each reading's test of the handler is the one on the
word; the shifts are a product and a quotient by a power of 2. -/
theorem shiftsUnderBothReadings : Obligations.ShiftsUnderBothReadings := by
  refine ⟨fun w hlo hhi => ?decode, fun d n immr imms s => ?lsl, fun d n immr imms s => ?lsr⟩
  case decode =>
    have hclass : classify w = some .shift := classify_shift_of_op11 hlo hhi
    rw [decode_of_shift .a64 hclass, decode_of_shift .literal hclass]
    simp only [shiftIsLsr_a64_iff, shiftIsLsr_literal_iff hclass, ite_not]
    exact ⟨rfl, rfl⟩
  case lsl =>
    simp only [← lslAmount_eq_ite, ← shiftLeft_eq_ofNat]
    exact writeSettingZN_result ..
  case lsr =>
    simp only [← lsrAmount_eq_ite, ← ushiftRight_eq_ofNat]
    exact writeSettingZN_result ..

/-- Settles O35: the row of op11 0x750, and the result the shifts have too. -/
theorem andsWritesZAndNOnly : Obligations.AndsWritesZAndNOnly :=
  ⟨decodesAs_of_row (cls := .ands) (by decide) fun _ _ _ => rfl, fun _ _ _ _ => writeSettingZN_result ..⟩

end Sys2Proof.Proofs

/-! # Control transfer (43_branch.md) -/

namespace Sys2Proof

/-- The op8 window of B.cond comes before the opcode table (R100). -/
theorem decode_of_op8_bCond (r : ShiftReading) {w : Word32} (h : fieldOp8 w = 0x54#8) :
    decode r w = .ok (.bCond (fieldImm19 w) (condOfCode (fieldCond w))) :=
  (decode_eq_ok_iff_classify r w _).mpr ⟨.bCond, if_pos h, rfl⟩

/-- The codes outside the table of R216. -/
theorem condOfCode_of_unlisted : ∀ c : BitVec 4, c ∉ [0b0000#4, 0b0001#4, 0b1010#4, 0b1011#4, 0b1100#4, 0b1101#4] →
    condOfCode c = .unrecognised c := by decide

end Sys2Proof

namespace Sys2Proof.Machine

/-! ## Conditions and targets (R210, R215, R216) -/

/-- A recognised condition is decided, by Z and N (R216). -/
theorem condHolds_eq_some_iff (f : Flags) {c : Cond} (hrec : ∀ code, c ≠ .unrecognised code) (taken : Bool) :
    condHolds f c = some taken ↔ (taken = true ↔ Claims.condTrue f c) := by
  cases c with
  | unrecognised code => exact absurd rfl (hrec code)
  | _ => cases taken <;> simp [condHolds, Claims.condTrue]

theorem off19_eq_scaled (imm19 : BitVec 19) : off19 imm19 = Claims.scaled imm19 := signExtend_shiftLeft_two imm19

theorem off26_eq_scaled (imm26 : BitVec 26) : off26 imm26 = Claims.scaled imm26 := signExtend_shiftLeft_two imm26

/-- The target of a conditional branch, by what its test `taken` decides (R211, R217). -/
theorem branchTarget_eq_ite (s : State) (imm19 : BitVec 19) {taken : Bool} {P : Prop} [Decidable P]
    (htest : taken = true ↔ P) : branchTarget s taken (off19 imm19) =
      if P then s.current.pc + Claims.scaled imm19 else s.current.pc + 4 := by
  rw [branchTarget, off19_eq_scaled]
  exact if_congr htest rfl rfl

/-! ## Results -/

/-- The one result of every branching handler: the pc alone (R39). -/
theorem jump_result (s : State) (pc : Word) : ∃ t, jump pc s = .next t ∧ PcResult s t pc [] :=
  ⟨_, rfl, pcResult s s pc [] (by simp)⟩

/-- A diagnostic and the pc policy of R34, as a pc result. -/
theorem retire_emitDiag_result (s : State) (k : Diagnostic) :
    ∃ t, retire (emitDiag k s) = .next t ∧ PcResult s t (s.current.pc + 4) [.diag k] :=
  ⟨_, rfl, pcResult s (emitDiag k s) _ _ rfl⟩

/-- B.cond with a recognised condition, in each outcome of its test (R215, R217). -/
theorem execBCond_result (s : State) (imm19 : BitVec 19) {c : Cond} (hrec : ∀ code, c ≠ .unrecognised code)
    (taken : Bool) (htest : taken = true ↔ Claims.condTrue s.current.flags c) :
    ∃ t, execBCond imm19 c s = .next t ∧
      PcResult s t (if taken then s.current.pc + Claims.scaled imm19 else s.current.pc + 4) [] := by
  rw [execBCond, (condHolds_eq_some_iff _ hrec taken).mpr htest, ← branchTarget_eq_ite s imm19 Iff.rfl]
  exact jump_result s _

end Sys2Proof.Machine

namespace Sys2Proof.Proofs

open Sys2Proof.Machine Sys2Proof.Claims

/-- Settles O40: a recognised condition is decided by Z and N as R216 says, and either outcome of the test writes the pc
alone; an unrecognised one has no test and ends as a non-branching handler. -/
theorem conditionalBranchTestsZAndN : Obligations.ConditionalBranchTestsZAndN := by
  refine ⟨fun r w h => decode_of_op8_bCond r h, by decide, condOfCode_of_unlisted, fun imm c s =>
    ⟨fun hrec htrue => ?taken, fun hrec hfalse => ?notTaken, fun code hcode => ?unrecognised⟩⟩
  case taken => exact execBCond_result s imm hrec true (iff_of_true rfl htrue)
  case notTaken => exact execBCond_result s imm hrec false (iff_of_false Bool.false_ne_true hfalse)
  case unrecognised =>
    subst hcode
    exact retire_emitDiag_result s .unknownCond

/-- Settles O39: the rows of B and BR, and the offset of B as a signed multiplication by 4. -/
theorem branchesWriteOnlyThePc : Obligations.BranchesWriteOnlyThePc := by
  refine ⟨decodesAs_of_row (cls := .b) (by decide) fun _ _ _ => rfl,
    decodesAs_of_row (cls := .br) (by decide) fun _ _ _ => rfl, fun imm s => ?b, fun n s => jump_result s (readReg s n)⟩
  rw [← off26_eq_scaled]
  exact jump_result s _

/-- Settles O41: the rows of CBZ and CBNZ; a word is 0 exactly when its number is, so both handlers test all 64 bits. -/
theorem compareAndBranchTestsAllOfRd : Obligations.CompareAndBranchTestsAllOfRd := by
  refine ⟨decodesAs_of_row (cls := .cbz) (by decide) fun _ _ _ => rfl,
    decodesAs_of_row (cls := .cbnz) (by decide) fun _ _ _ => rfl, fun d imm s => ?_⟩
  have hzero : (readReg s d == 0) = true ↔ (readReg s d).toNat = 0 := beq_iff_eq.trans BitVec.toNat_inj.symm
  have hnonzero : (readReg s d != 0) = true ↔ ¬ (readReg s d).toNat = 0 := bne_iff_ne.trans BitVec.toNat_inj.symm.not
  refine ⟨?cbz, ?cbnz⟩
  case cbz =>
    rw [← branchTarget_eq_ite s imm hzero]
    exact jump_result s _
  case cbnz =>
    rw [← ite_not, ← branchTarget_eq_ite s imm hnonzero]
    exact jump_result s _

end Sys2Proof.Proofs

/-! # MOVZ (44_move.md) -/

namespace Sys2Proof.Machine

/-- The immediate as the number it stands for: zero-extended, not shifted (R98). -/
theorem movzImm_eq_ofNat (imm16 : BitVec 16) : movzImm imm16 = BitVec.ofNat 64 imm16.toNat :=
  (BitVec.ofNat_toNat 64 imm16).symm

/-- The diagnostic is recorded before the write of Rd, so it is emitted for index 31 too (R240). -/
theorem execMovz_result (s : State) (rd : Reg) (imm16 : BitVec 16) (hw : BitVec 2) :
    ∃ t, execMovz rd imm16 hw s = .next t ∧ RegisterResult s t rd (movzImm imm16) s.next.flags
      (if hw = 0 then [] else [.diag .movzHwNonzero]) :=
  ⟨_, rfl, registerResult_events s (diagHw hw s) rd _ _ (diagHw_eq hw s)⟩

end Sys2Proof.Machine

namespace Sys2Proof.Proofs

open Sys2Proof.Machine Sys2Proof.Claims

/-- Settles O42: the row of MOVZ, and a register result whose only event is the diagnostic of `hw`. -/
theorem movzIgnoresHwButReportsIt : Obligations.MovzIgnoresHwButReportsIt := by
  refine ⟨decodesAs_of_row (cls := .movz) (by decide) fun _ _ _ => rfl, fun d imm hw s => ?_⟩
  rw [← movzImm_eq_ofNat]
  exact execMovz_result s d imm hw

end Sys2Proof.Proofs

/-! # Loads and stores (45_loadstore.md)

The handlers of all six end alike: a fault of the data checks, misaligned before unmapped, or their effect
(`accessEnds`). What is left per instruction is which bytes its words hold. -/

namespace Sys2Proof.Machine

/-! ## Addresses (R270, R271) -/

section
variable (s : State) (n : Reg) (imm : BitVec 9)

theorem narrowStoreAddress_of_wide (h : s.config.narrowStoreAddr32 = false) :
    narrowStoreAddress s n imm = effectiveAddress s n imm := by
  simp [narrowStoreAddress, h]

theorem toNat_narrowStoreAddress (h : s.config.narrowStoreAddr32 = true) :
    (narrowStoreAddress s n imm).toNat = (effectiveAddress s n imm).toNat % 2 ^ 32 := by
  rw [narrowStoreAddress, if_pos h, BitVec.toNat_setWidth_of_le (by decide), BitVec.toNat_setWidth]

/-- Narrowing changes no address below 2^32 (R271). -/
theorem narrowStoreAddress_of_lt (h : (effectiveAddress s n imm).toNat < 2 ^ 32) :
    narrowStoreAddress s n imm = effectiveAddress s n imm := by
  cases hnarrow : s.config.narrowStoreAddr32 with
  | false => exact narrowStoreAddress_of_wide s n imm hnarrow
  | true =>
    apply BitVec.eq_of_toNat_eq
    rw [toNat_narrowStoreAddress s n imm hnarrow, Nat.mod_eq_of_lt h]

end

/-! ## The words of an access, and their mapping (R66, R70) -/

theorem doublewordWords_mapped_iff (c : Config) (a : Word) :
    (∀ x ∈ doublewordWords a, wordMapped c x = true) ↔ BytesMapped c a 8 := by
  simp [doublewordWords, bytesMapped_eight_iff]

theorem byteWord_mapped_iff (c : Config) (a : Word) :
    (∀ x ∈ [wordAddress a], wordMapped c x = true) ↔ BytesMapped c (wordAddress a) 4 := by
  simp [wordMapped_iff]

/-- A halfword lies in the word of its address, and at lane 3 also in the next one (R252, R262). -/
theorem halfwordWords_eq_ite (a : Word) : halfwordWords a =
    if a.toNat % 4 = 3 then [wordAddress a, wordAddress a + 4] else [wordAddress a] := by
  rw [halfwordWords, lane_eq_mod, ← ite_not]
  exact if_congr (by omega) rfl rfl

theorem halfwordWords_mapped_iff (c : Config) (a : Word) : (∀ x ∈ halfwordWords a, wordMapped c x = true) ↔
    BytesMapped c (wordAddress a) (if a.toNat % 4 = 3 then 8 else 4) := by
  rw [halfwordWords_eq_ite]
  split
  · exact doublewordWords_mapped_iff c (wordAddress a)
  · exact byteWord_mapped_iff c a

/-! ### The commands of a halfword access (R72) -/

theorem loadsOf_halfwordWords (m : Memory) (a : Word) : loadsOf m (halfwordWords a) =
    if a.toNat % 4 = 3
      then [.load (wordAddress a) (m.readWord (wordAddress a)),
        .load (wordAddress a + 4) (m.readWord (wordAddress a + 4))]
      else [.load (wordAddress a) (m.readWord (wordAddress a))] := by
  rw [halfwordWords_eq_ite]
  split <;> rfl

/-- The read-modify-write of a halfword, from memory `m` to `m'`: every load before the first store (R252). -/
theorem loadsOf_storesOf_halfwordWords (m m' : Memory) (a : Word) :
    loadsOf m (halfwordWords a) ++ storesOf m' (halfwordWords a) =
    if a.toNat % 4 = 3
      then [.load (wordAddress a) (m.readWord (wordAddress a)),
        .load (wordAddress a + 4) (m.readWord (wordAddress a + 4)),
        .store (wordAddress a) (m'.readWord (wordAddress a)),
        .store (wordAddress a + 4) (m'.readWord (wordAddress a + 4))]
      else [.load (wordAddress a) (m.readWord (wordAddress a)),
        .store (wordAddress a) (m'.readWord (wordAddress a))] := by
  rw [halfwordWords_eq_ite]
  split <;> rfl

/-! ## How an access ends (R65, R66, R68, R74) -/

/-- An access at `a` faults on its alignment, else on its mapping, else does its effect. -/
structure AccessEnds (i : Instr) (s : State) (a : Word) (aligned mapped : Prop) : Prop where
  misaligned : ¬ AlignmentAllows s.config aligned → exec i s = .fault (.misalignedData s.current.pc a)
  unmapped   : AlignmentAllows s.config aligned → ¬ mapped → exec i s = .fault (.unmappedData s.current.pc a)
  completes  : AlignmentAllows s.config aligned → mapped → exec i s = .next ((effect s i).apply s)

/-- The data checks of an instruction decide how it ends. -/
theorem accessEnds {i : Instr} {s : State} {a : Word} {mis : Bool} {words : List Word} {aligned mapped : Prop}
    (hchecks : accessFault s i = dataFault s a mis words) (haligned : mis = false ↔ aligned)
    (hmapped : (∀ x ∈ words, wordMapped s.config x = true) ↔ mapped) : AccessEnds i s a aligned mapped := by
  obtain rfl := propext haligned
  obtain rfl := propext hmapped
  refine ⟨fun hmis => ?misaligned, fun hal hun => ?unmapped, fun hal hmap => ?completes⟩
  case misaligned =>
    exact (exec_eq_fault_iff ..).mpr (hchecks.trans ((dataFault_eq_some_iff ..).mpr (.inl ⟨hmis, rfl⟩)))
  case unmapped =>
    have hword : ∃ x ∈ words, wordMapped s.config x = false := by simpa using hun
    exact (exec_eq_fault_iff ..).mpr (hchecks.trans ((dataFault_eq_some_iff ..).mpr (.inr ⟨hal, hword, rfl⟩)))
  case completes =>
    exact (exec_eq_next_iff ..).mpr ⟨hchecks.trans ((dataFault_eq_none_iff ..).mpr ⟨hal, hmap⟩), rfl⟩

section
variable {i : Instr} {s : State} {a : Word}

theorem accessEnds_doubleword (h : accessFault s i = dataFault s a (!isAligned a) (doublewordWords a)) :
    AccessEnds i s a (a.toNat % 4 = 0) (BytesMapped s.config a 8) :=
  accessEnds h (by rw [← isAligned_iff, Bool.not_eq_false']) (doublewordWords_mapped_iff ..)

/-- No byte is misaligned (R65). -/
theorem accessEnds_byte (h : accessFault s i = dataFault s a false [wordAddress a]) :
    AccessEnds i s a True (BytesMapped s.config (wordAddress a) 4) :=
  accessEnds h (iff_of_true rfl trivial) (byteWord_mapped_iff ..)

theorem accessEnds_halfword (h : accessFault s i = dataFault s a (halfwordCrosses a) (halfwordWords a)) :
    AccessEnds i s a (¬ a.toNat % 4 = 3) (BytesMapped s.config (wordAddress a) (if a.toNat % 4 = 3 then 8 else 4)) :=
  accessEnds h (by rw [← halfwordCrosses_iff, Bool.not_eq_true]) (halfwordWords_mapped_iff ..)

end

/-! ## Results -/

/-- A store that goes on is a store result: its bytes are those of its access (R72). -/
theorem storeResult_of_exec {i : Instr} {s t : State} {a : Word} {n : Nat} (h : exec i s = .next t)
    (hstore : isStore i = true) (haccess : dataAccess s i = some (a, n)) :
    StoreResult s t a n (effect s i).events := by
  have hmem := memoryKeptOutside_of_store h hstore haccess
  obtain ⟨-, rfl⟩ := (exec_eq_next_iff i s t).mp h
  cases i with
  | stur | sturb | sturh => exact ⟨fun _ => rfl, rfl, Bool.and_true _, hmem, ⟨rfl, rfl, rfl, rfl⟩⟩
  | _ => exact absurd hstore Bool.false_ne_true

/-- A load's effect is a register result that sets no flag (R260 to R262). -/
theorem registerResult_of_result (s : State) (rd : Reg) (v : Word) (events : List PortEvent) :
    RegisterResult s ((Effect.result s rd v .keep events).apply s) rd v s.next.flags events :=
  Effect.apply_result_keep s rd v events ▸ registerResult_events s _ rd v events rfl

/-! ## Values -/

/-- The low bits of a value, zero-extended, as a number (R261, R262). -/
theorem setWidth_setWidth_eq_ofNat (x : Word) (n : Nat) :
    (x.setWidth n).setWidth 64 = BitVec.ofNat 64 (x.toNat % 2 ^ n) :=
  (BitVec.ofNat_toNat 64 (x.setWidth n)).symm.trans (congrArg _ (BitVec.toNat_setWidth n x))

/-- Two bytes, little-endian and zero-extended, as a number (R262). -/
theorem setWidth_append_bytes (b0 b1 : Byte) :
    (b1 ++ b0).setWidth 64 = BitVec.ofNat 64 (b0.toNat + 2 ^ 8 * b1.toNat) := by
  rw [← BitVec.ofNat_toNat, toNat_append_add, Nat.add_comm, Nat.mul_comm]

/-! ## Memory after a store, as a load reads it -/

section
variable (a : Word) (s : State)

theorem readByte_storeByte_self (b : Byte) : (storeByte a b s).mem.readByte a = b := by
  rw [readByte_storeByte, if_pos rfl]

theorem readByte_storeHalfword_low (h : BitVec 16) : (storeHalfword a h s).mem.readByte a = h.extractLsb' 0 8 := by
  rw [readByte_storeHalfword, if_pos rfl]

theorem readByte_storeHalfword_high (h : BitVec 16) :
    (storeHalfword a h s).mem.readByte (a + 1) = h.extractLsb' 8 8 := by
  rw [readByte_storeHalfword, if_neg (by bv_omega), if_pos rfl]

/-- The two bytes of a halfword store are the halfword (R252, R262). -/
theorem readBytes_storeHalfword (h : BitVec 16) :
    (storeHalfword a h s).mem.readByte (a + 1) ++ (storeHalfword a h s).mem.readByte a = h := by
  rw [readByte_storeHalfword_low, readByte_storeHalfword_high]
  exact BitVec.extractLsb'_append_extractLsb'

/-- The two words of a 64-bit store are the value (R250, R260, D23). -/
theorem readWords_storeDoubleword (v : Word) :
    (storeDoubleword a v s).mem.readWord (a + 4) ++ (storeDoubleword a v s).mem.readWord a = v := by
  rw [readWord_storeDoubleword_low, readWord_storeDoubleword_high]
  exact BitVec.extractLsb'_append_extractLsb'

end

/-! ## The state the step after a store starts from (R38, R39) -/

section
variable {s t : State} {a : Word} {n : Nat} {events : List PortEvent} (h : StoreResult s t a n events)
  (hnext : s.next = s.current)
include h hnext

/-- A store leaves every register as it was. -/
theorem StoreResult.readReg_committed (i : Reg) : readReg (stage (commit t)) i = readReg s i := by
  have hentry : t.next.entry i = s.current.entry i := (h.registers i).trans (by rw [hnext])
  simp [readReg, hentry]

theorem StoreResult.effectiveAddress_committed (rn : Reg) (imm : BitVec 9) :
    effectiveAddress (stage (commit t)) rn imm = effectiveAddress s rn imm := by
  rw [effectiveAddress, h.readReg_committed hnext, effectiveAddress]

end

/-- The data checks pass or not by the parameters alone. -/
theorem dataFault_eq_none_of_config {s t : State} {ea : Word} {mis : Bool} {words : List Word}
    (hconfig : t.config = s.config) (h : dataFault s ea mis words = none) : dataFault t ea mis words = none := by
  rw [dataFault_eq_none_iff] at h ⊢
  rwa [hconfig]

/-- After an instruction that went on, a load with the same data checks goes on too, and leaves its value in Rd. -/
theorem load_of_same_checks {i l : Instr} {s t u : State} {a v : Word} {mis : Bool} {words : List Word} {rd : Reg}
    {events : List PortEvent} (h : exec i s = .next t) (hi : accessFault s i = dataFault s a mis words)
    (hconfig : u.config = s.config) (hl : accessFault u l = dataFault u a mis words)
    (heffect : effect u l = .result u rd v .keep events) (hrd : rd ≠ xzr) :
    ∃ r, exec l u = .next r ∧ r.next.entry rd = v := by
  obtain ⟨hpass, -⟩ := (exec_eq_next_iff i s t).mp h
  have hchecks : accessFault u l = none := hl.trans (dataFault_eq_none_of_config hconfig (hi.symm.trans hpass))
  exact ⟨_, (exec_eq_next_iff ..).mpr ⟨hchecks, rfl⟩, heffect ▸ (registerResult_of_result u rd v events).written hrd⟩

end Sys2Proof.Machine

namespace Sys2Proof.Proofs

open Sys2Proof.Machine Sys2Proof.Claims

/-! ## The statements on addresses and accesses -/

/-- Settles O44: the offset is sign-extended, and narrowing is a remainder that changes nothing below 2^32. -/
theorem effectiveAddresses : Obligations.EffectiveAddresses := fun s n imm =>
  ⟨rfl, by simp [effectiveAddress, off9, BitVec.signExtend], narrowStoreAddress_of_wide s n imm,
    toNat_narrowStoreAddress s n imm, narrowStoreAddress_of_lt s n imm⟩

/-- Settles O45: the row of STUR, the ends of a 64-bit access, and what the store does to every byte. -/
theorem sturStoresEightBytes : Obligations.SturStoresEightBytes := by
  refine ⟨decodesAs_of_row (cls := .stur) (by decide) fun _ _ _ => rfl, fun d n imm s => ?_⟩
  have hends := accessEnds_doubleword (i := .stur d n imm) (s := s) rfl
  refine ⟨hends.misaligned, hends.unmapped, fun halign hmapped => ?_⟩
  have hexec := hends.completes halign hmapped
  refine ⟨_, hexec, ?result, fun k hk => ?bytes⟩
  case result =>
    rw [← readWord_storeDoubleword_low (effectiveAddress s n imm) (readReg s d) s,
      ← readWord_storeDoubleword_high (effectiveAddress s n imm) (readReg s d) s]
    exact storeResult_of_exec hexec rfl rfl
  case bytes =>
    rw [Effect.apply_mem, effect_stur_mem, readByte_storeDoubleword, toNat_addr_sub _ k (by omega), if_pos hk]
    rfl

/-- Settles O46: the row of STURB, the ends of a byte access, and the byte written. -/
theorem sturbStoresOneByte : Obligations.SturbStoresOneByte := by
  refine ⟨decodesAs_of_row (cls := .sturb) (by decide) fun _ _ _ => rfl, fun d n imm s => ?_⟩
  have hends := accessEnds_byte (i := .sturb d n imm) (s := s) rfl
  refine ⟨hends.unmapped (.inr trivial), fun hmapped => ?_⟩
  have hexec := hends.completes (.inr trivial) hmapped
  refine ⟨_, hexec, storeResult_of_exec hexec rfl rfl, ?byte⟩
  case byte =>
    rw [Effect.apply_mem, effect_sturb_mem, readByte_storeByte_self]
    exact BitVec.setWidth_eq_extractLsb' (by decide)

/-- Settles O47: the row of STURH, the ends of a halfword access, and the two bytes written; the events are the loads and
stores of the words that hold the halfword. -/
theorem sturhStoresTwoBytes : Obligations.SturhStoresTwoBytes := by
  refine ⟨decodesAs_of_row (cls := .sturh) (by decide) fun _ _ _ => rfl, fun d n imm s => ?_⟩
  have hends := accessEnds_halfword (i := .sturh d n imm) (s := s) rfl
  refine ⟨hends.misaligned, hends.unmapped, fun halign hmapped => ?_⟩
  have hexec := hends.completes halign hmapped
  refine ⟨_, hexec, ?result, ?low, ?high⟩
  case result =>
    rw [← loadsOf_storesOf_halfwordWords]
    exact storeResult_of_exec hexec rfl rfl
  case low =>
    rw [Effect.apply_mem, effect_sturh_mem, readByte_storeHalfword_low]
    exact BitVec.extractLsb'_setWidth_of_le (by decide)
  case high =>
    rw [Effect.apply_mem, effect_sturh_mem]
    exact (readByte_storeHalfword_high ..).trans (BitVec.extractLsb'_setWidth_of_le (by decide))

/-- Settles O48: the row of LDUR, the ends of a 64-bit access, and the bytes of its value. -/
theorem ldurLoadsEightBytes : Obligations.LdurLoadsEightBytes := by
  refine ⟨decodesAs_of_row (cls := .ldur) (by decide) fun _ _ _ => rfl, fun d n imm s => ?_⟩
  have hends := accessEnds_doubleword (i := .ldur d n imm) (s := s) rfl
  exact ⟨hends.misaligned, hends.unmapped, fun halign hmapped => ⟨_, _, hends.completes halign hmapped,
    registerResult_of_result .., fun k hk => loadDoubleword_byte (effectiveAddress s n imm) s k hk⟩⟩

/-- Settles O49: the row of LDURB, the ends of a byte access, and the zero extension as a number. -/
theorem ldurbLoadsOneByteZeroExtended : Obligations.LdurbLoadsOneByteZeroExtended := by
  refine ⟨decodesAs_of_row (cls := .ldurb) (by decide) fun _ _ _ => rfl, fun d n imm s => ?_⟩
  have hends := accessEnds_byte (i := .ldurb d n imm) (s := s) rfl
  refine ⟨hends.unmapped (.inr trivial), fun hmapped => ⟨_, hends.completes (.inr trivial) hmapped, ?_⟩⟩
  rw [BitVec.ofNat_toNat]
  exact registerResult_of_result ..

/-- Settles O50: the row of LDURH, the ends of a halfword access, and its two bytes as a number; the events are the loads
of the words that hold the halfword. -/
theorem ldurhLoadsTwoBytesZeroExtended : Obligations.LdurhLoadsTwoBytesZeroExtended := by
  refine ⟨decodesAs_of_row (cls := .ldurh) (by decide) fun _ _ _ => rfl, fun d n imm s => ?_⟩
  have hends := accessEnds_halfword (i := .ldurh d n imm) (s := s) rfl
  refine ⟨hends.misaligned, hends.unmapped, fun halign hmapped => ⟨_, hends.completes halign hmapped, ?_⟩⟩
  rw [← setWidth_append_bytes, ← loadsOf_halfwordWords]
  exact registerResult_of_result ..

/-! ## Round trips (R263) -/

/-- Where the round trips of R263 hold, a narrow store goes to the effective address. -/
theorem narrowStoreAddress_of_wide_or_lt {s : State} {n : Reg} {imm : BitVec 9}
    (h : s.config.narrowStoreAddr32 = false ∨ (effectiveAddress s n imm).toNat < 2 ^ 32) :
    narrowStoreAddress s n imm = effectiveAddress s n imm :=
  h.elim (narrowStoreAddress_of_wide s n imm) (narrowStoreAddress_of_lt s n imm)

/-- Settles O51: LDURB makes the checks STURB made and reads the byte it wrote; a byte elsewhere is outside the store. -/
theorem byteStoreThenLoadRoundTrip : Obligations.ByteStoreThenLoadRoundTrip := by
  intro d d' n imm s t hnext hd haddr h
  have hnarrow := narrowStoreAddress_of_wide_or_lt haddr
  have hstore := storeResult_of_exec h rfl rfl
  have hea := hstore.effectiveAddress_committed hnext n imm
  have hmem : t.mem = (storeByte (effectiveAddress s n imm) ((readReg s d).setWidth 8) s).mem := by
    rw [((exec_eq_next_iff ..).mp h).2, Effect.apply_mem, effect_sturb_mem, hnarrow]
  refine ⟨?_, fun b hb => ?_⟩
  · obtain ⟨u, hexec, hentry⟩ := load_of_same_checks (l := .ldurb d' n imm) (u := stage (commit t)) h rfl
      hstore.stepped.config (by rw [hnarrow, accessFault, hea]) rfl hd
    refine ⟨u, hexec, hentry.trans ?_⟩
    rw [hea, stage_mem, commit_mem, hmem, readByte_storeByte_self, setWidth_setWidth_eq_ofNat]
  · rw [hmem, readByte_storeByte, if_neg hb]

/-- Settles O52: LDUR and LDURH make the checks STUR and STURH made, and read the value from the bytes they wrote. -/
theorem wideStoreThenLoadRoundTrip : Obligations.WideStoreThenLoadRoundTrip := by
  refine ⟨fun d d' n imm s t hnext hd h => ?doubleword, fun d d' n imm s t hnext hd haddr h => ?halfword⟩
  case doubleword =>
    have hstore := storeResult_of_exec h rfl rfl
    have hea := hstore.effectiveAddress_committed hnext n imm
    obtain ⟨u, hexec, hentry⟩ := load_of_same_checks (l := .ldur d' n imm) (u := stage (commit t)) h rfl
      hstore.stepped.config (by rw [accessFault, hea]) rfl hd
    refine ⟨u, hexec, hentry.trans ?_⟩
    rw [hea, stage_mem, commit_mem, ((exec_eq_next_iff ..).mp h).2, Effect.apply_mem, effect_stur_mem,
      readWords_storeDoubleword]
  case halfword =>
    have hnarrow := narrowStoreAddress_of_wide_or_lt haddr
    have hstore := storeResult_of_exec h rfl rfl
    have hea := hstore.effectiveAddress_committed hnext n imm
    obtain ⟨u, hexec, hentry⟩ := load_of_same_checks (l := .ldurh d' n imm) (u := stage (commit t)) h rfl
      hstore.stepped.config (by rw [hnarrow, accessFault, hea]) rfl hd
    refine ⟨u, hexec, hentry.trans ?_⟩
    rw [hea, stage_mem, commit_mem, ((exec_eq_next_iff ..).mp h).2, Effect.apply_mem, effect_sturh_mem, hnarrow,
      readBytes_storeHalfword, setWidth_setWidth_eq_ofNat]

end Sys2Proof.Proofs

/-! # Model-level faults (60_exceptions.md)

A handler ends by its data checks alone (`exec_eq`), so what it records in a fault is what those checks record, and it
has nothing to refuse. -/

namespace Sys2Proof.Machine

/-- What the data checks record with a fault: the pc of the instruction and the address they check (R303). -/
theorem dataFault_recorded {s : State} {ea : Word} {mis : Bool} {words : List Word} {f : Fault}
    (h : dataFault s ea mis words = some f) : f.recordedPc = s.current.pc ∧ f.recordedAddress = some ea := by
  obtain ⟨_, rfl⟩ | ⟨_, _, rfl⟩ := (dataFault_eq_some_iff ..).mp h
  · exact ⟨rfl, rfl⟩
  · exact ⟨rfl, rfl⟩

/-- The address an instruction checks is the one it accesses; an instruction that accesses none has no checks. -/
theorem accessFault_recorded {s : State} {i : Instr} {f : Fault} (h : accessFault s i = some f) :
    f.recordedPc = s.current.pc ∧ ∃ a n, dataAccess s i = some (a, n) ∧ f.recordedAddress = some a := by
  cases i with
  | stur | sturb | sturh | ldur | ldurb | ldurh =>
    obtain ⟨hpc, haddress⟩ := dataFault_recorded h
    exact ⟨hpc, _, _, rfl, haddress⟩
  | _ => exact absurd h nofun

theorem exec_ne_refused (i : Instr) (s : State) (r : Refusal) : exec i s ≠ .refused r := by
  rw [exec_eq]
  exact guarded_ne_refused _ _ r

end Sys2Proof.Machine

namespace Sys2Proof.Proofs

open Sys2Proof.Machine Sys2Proof.Claims

/-- Settles O56: a handler's fault is one of its data checks, and those raise codes 3 and 4 at the address accessed. -/
theorem onlyLoadsAndStoresFault : Obligations.OnlyLoadsAndStoresFault := by
  refine ⟨fun i s f hfault => ?_, exec_ne_refused⟩
  have hcheck : accessFault s i = some f := (exec_eq_fault_iff ..).mp hfault
  exact ⟨accessFault_code s i f hcheck, accessFault_recorded hcheck⟩

end Sys2Proof.Proofs

/-! # Reset (70_reset_and_hazards.md) -/

namespace Sys2Proof.Machine

/-- X0 to X30 are `INIT_REGS`; the stored entry 31, which reset adds behind them, is not among them (R330, R32). -/
theorem resetWith_register (c : Config) (b : Boot) (k : Nat) (h : k < 31) :
    (State.resetWith c b).current.registers[k] = b.initRegs[k] :=
  Vector.getElem_push_lt h

/-- `INIT_REGS` at its default is all zero (R10). -/
theorem bootDefault_register (k : Nat) (h : k < 31) : Boot.default.initRegs[k] = 0 :=
  Vector.getElem_replicate h

/-- A byte of memory reads as its cells give it; before any store those are `INIT_MEM` (R330). -/
theorem resetWith_readByte (c : Config) (b : Boot) (a : Word) :
    (State.resetWith c b).mem.readByte a = readCells a.toNat b.initMem := by
  rw [resetWith_mem, Memory.readByte]

end Sys2Proof.Machine

namespace Sys2Proof.Proofs

open Sys2Proof.Machine Sys2Proof.Claims

/-- Settles O24, field by field; `State.reset` is reset from the default boot, so its registers are that boot's. -/
theorem resetSetsEveryField : Obligations.ResetSetsEveryField := fun c b =>
  ⟨resetWith_register c b, resetWith_pc c b, resetWith_flags c b, resetWith_runBit c b, resetWith_next c b,
    resetWith_readByte c b,
    fun k h => (resetWith_register Config.default Boot.default k h).trans (bootDefault_register k h)⟩

end Sys2Proof.Proofs
